-- ==== Sys2Proof/Word.lean ====
section
/-! DEFINITION. The word types of the C32 CORE and the plain records its registers hold. -/

namespace Sys2Proof

/-- One byte of a buffer (R60). -/
abbrev Byte := BitVec 8

/-- A 32-bit word of the SHA-256 unit (44_sha256.md). -/
abbrev Word32 := BitVec 32

/-- A slot of the register map, and the wide result and error registers (R27, R30, R61). -/
abbrev Word64 := BitVec 64

/-- The two byte buffers (R60). -/
inductive Space where
  | src
  | dst
deriving DecidableEq, Repr

/-- A four-byte register array: CHK[0..3], ERR_EXPECTED[0..3], ERR_GOT[0..3] (R45). -/
structure Quad where
  b0 : Byte
  b1 : Byte
  b2 : Byte
  b3 : Byte
deriving DecidableEq, Repr, Inhabited

/-- Eight 32-bit words: the chaining value or the working variables of the SHA-256 unit (R41). -/
structure Words8 where
  a : Word32
  b : Word32
  c : Word32
  d : Word32
  e : Word32
  f : Word32
  g : Word32
  h : Word32
deriving DecidableEq, Repr, Inhabited

/-- The registers of the SHA-256 unit (R41). DESIGN CHOICE (log entry 8): R41 gives the message schedule 64
entries or, rolling, 16, and the model holds 64. -/
structure ShaUnit where
  chain    : Words8
  working  : Words8
  schedule : Vector Word32 64
  block    : Vector Byte 64
  bitLen   : Word64
deriving DecidableEq, Repr, Inhabited

end Sys2Proof
end

