-- ==== Sys2Proof/Config.lean ====
section
/-! DEFINITION. What an implementation of the C32 CORE fixes (R4), and the free values: constants without a body, which stand
wherever the spec says "any value" or "unspecified". -/

namespace Sys2Proof

/-- The implementation parameters SRC_SIZE and DST_SIZE (R4). LEN_W is fixed at 32 and BASE_ADDR is the platform's (R75).
A machine's State carries them, so that a statement about every state holds for every choice (log entry 1). -/
structure Params where
  srcSize : Nat
  dstSize : Nat
deriving DecidableEq, Repr

/-- DESIGN CHOICE (log entry 1): the sizes 95_test_vectors.md uses, 256 and 512. -/
def Config.testParams : Params := { srcSize := 256, dstSize := 512 }

/-- What a buffer byte that nothing has written since reset holds (R47, U11): unspecified, a free value of the buffer, the
number of the reset and the index (log entry 6). -/
opaque Config.unwritten : Space → Nat → Nat → Byte

/-- What DST holds where R67 and R231 say "any value": a free value of the draw and the index (log entry 5). -/
opaque Config.leftover : Nat → Nat → Byte

/-- What a HOST read of anything but STATUS returns while BUSY (R68): a free value of the draw (log entry 7). -/
opaque Config.busyRead : Nat → Word64

/-- What the SHA-256 unit's registers hold between commands (R41, U12): a free value of the draw (log entry 8). -/
opaque Config.shaLeftover : Nat → ShaUnit

/-- Whether the CORE completes its command before the HOST's next access, when the HOST does not wait (R68, R233): a free
value of the draw (log entry 4). -/
opaque Config.coreFirst : Nat → Bool

end Sys2Proof
end

