-- ==== Sys2Proof/Syntax.lean ====
section
/-! DEFINITION. The twelve commands of the C32 CORE (R81), one constructor for each row of spec/opcode_table.json. A command has
no immediate and no register field: its operands are fixed registers (R80, R83). -/

namespace Sys2Proof

/-- A command (R81). -/
inductive Instr where
  | encode
  | decode
  | encodeCheck
  | decodeCheck
  | enclen
  | declen
  | encchklen
  | decchklen
  | encodeP
  | decodeP
  | encodeCheckP
  | decodeCheckP
deriving DecidableEq, Repr

end Sys2Proof
end

