-- ==== Sys2Proof/WellFormed.lean ====
section
/-! DEFINITION. The fields of a command byte (R80) and which of them make a legal command (R82); the legal parameters (R4). -/

namespace Sys2Proof

/-- The fields of the command word CMDW (R80). -/
structure CommandFields where
  zero       : BitVec 3
  go         : Bool
  prefixed   : Bool
  capacity   : Bool
  checksum   : Bool
  decodeSide : Bool
deriving DecidableEq, Repr

/-- ZERO must be 0 (R80). -/
def CommandFields.zeroOk (f : CommandFields) : Bool := f.zero == 0

/-- GO must be 1 (R80). -/
def CommandFields.goOk (f : CommandFields) : Bool := f.go

/-- There is no prefixed capacity command (R82). -/
def CommandFields.variantOk (f : CommandFields) : Bool := !(f.prefixed && f.capacity)

/-- The fields of a legal command (R82). -/
def CommandFields.wellFormed (f : CommandFields) : Bool := f.zeroOk && f.goOk && f.variantOk

/-- The fields of each command, the column "P L C D" of R81. -/
def Instr.fields : Instr → CommandFields
  | .encode       => ⟨0, true, false, false, false, false⟩
  | .decode       => ⟨0, true, false, false, false, true⟩
  | .encodeCheck  => ⟨0, true, false, false, true,  false⟩
  | .decodeCheck  => ⟨0, true, false, false, true,  true⟩
  | .enclen       => ⟨0, true, false, true,  false, false⟩
  | .declen       => ⟨0, true, false, true,  false, true⟩
  | .encchklen    => ⟨0, true, false, true,  true,  false⟩
  | .decchklen    => ⟨0, true, false, true,  true,  true⟩
  | .encodeP      => ⟨0, true, true,  false, false, false⟩
  | .decodeP      => ⟨0, true, true,  false, false, true⟩
  | .encodeCheckP => ⟨0, true, true,  false, true,  false⟩
  | .decodeCheckP => ⟨0, true, true,  false, true,  true⟩

/-- A command is well formed when its fields are legal; every constructor is (Laws/PerInstr.lean). -/
def Instr.wellFormed (i : Instr) : Bool := i.fields.wellFormed

/-- A size of a buffer: above 0 and below 2^32 (R4). -/
def Params.sizeOk (n : Nat) : Bool := decide (0 < n) && decide (n < 2 ^ 32)

/-- The constraints on the parameters (R4). -/
def Params.wellFormed (p : Params) : Bool := Params.sizeOk p.srcSize && Params.sizeOk p.dstSize

end Sys2Proof
end

