-- ==== Sys2Proof/Decode.lean ====
section
/-! DEFINITION. The decoder of command bytes, total on any bytes and rejecting by name (R80 to R82), and after it the encoder,
written from R81's table of bytes. -/

namespace Sys2Proof

/-- Why a byte is no command (R82). -/
inductive DecodeError where
  /-- No byte to decode. -/
  | noByte
  /-- 0x20 to 0xFF: ZERO is not 0. -/
  | zeroField
  /-- 0x00 to 0x0F: GO is 0. -/
  | goClear
  /-- 0x1C to 0x1F: P = 1 with L = 1. -/
  | prefixedCapacity
deriving DecidableEq, Repr

/-- What the decoder answers: the command and the bytes after it, or the reason there is none. -/
inductive Decoded where
  | ok (i : Instr) (rest : List Byte)
  | rejected (e : DecodeError)
deriving DecidableEq, Repr

/-- The bits of a command byte as its fields (R80). -/
def commandFieldsOf (b : Byte) : CommandFields :=
  { zero       := b.extractLsb' 5 3
    go         := b.getLsbD 4
    prefixed   := b.getLsbD 3
    capacity   := b.getLsbD 2
    checksum   := b.getLsbD 1
    decodeSide := b.getLsbD 0 }

/-- The command that legal fields name (R81), by P, L, C and D. -/
def instrOfFields (f : CommandFields) : Instr :=
  match f.prefixed, f.capacity, f.checksum, f.decodeSide with
  | false, false, false, false => .encode
  | false, false, false, true  => .decode
  | false, false, true,  false => .encodeCheck
  | false, false, true,  true  => .decodeCheck
  | _,     true,  false, false => .enclen
  | _,     true,  false, true  => .declen
  | _,     true,  true,  false => .encchklen
  | _,     true,  true,  true  => .decchklen
  | true,  false, false, false => .encodeP
  | true,  false, false, true  => .decodeP
  | true,  false, true,  false => .encodeCheckP
  | true,  false, true,  true  => .decodeCheckP

/-- The decoder: a command is one byte (R80), and an illegal byte is rejected by the reason R82 gives. -/
def decode : List Byte → Decoded
  | [] => .rejected .noByte
  | b :: rest =>
    let f := commandFieldsOf b
    if !f.zeroOk then .rejected .zeroField
    else if !f.goOk then .rejected .goClear
    else if !f.variantOk then .rejected .prefixedCapacity
    else .ok (instrOfFields f) rest

/-- The command byte of each mnemonic (R81, first column). -/
def encodeByte : Instr → Byte
  | .encode       => 0x10
  | .decode       => 0x11
  | .encodeCheck  => 0x12
  | .decodeCheck  => 0x13
  | .enclen       => 0x14
  | .declen       => 0x15
  | .encchklen    => 0x16
  | .decchklen    => 0x17
  | .encodeP      => 0x18
  | .decodeP      => 0x19
  | .encodeCheckP => 0x1A
  | .decodeCheckP => 0x1B

/-- The words of a command: its one byte (R80). -/
def encode (i : Instr) : List Byte := [encodeByte i]

/-- The byte that stands for a table word of `nbits` bits: bit 0 is its least significant bit, bits above `nbits` are 0. -/
def tableByte (nbits w : Nat) : Byte := BitVec.ofNat 8 (w % 2 ^ nbits)

/-- The command the decoder reads from a word of spec/opcode_table.json. -/
def decodeTableWord (nbits w : Nat) : Option Instr :=
  match decode [tableByte nbits w] with
  | .ok i _ => some i
  | .rejected _ => none

end Sys2Proof
end

