-- ==== Sys2Proof/Machine/HostLine.lean ====
section
/-! DEFINITION. What the HOST can do to the block, as plain data: the lines of a HOST program (R92) and the reset input (R230),
and the names of the registers of the map (R61). -/

namespace Sys2Proof.Machine

/-- The registers of the REG space (R61). -/
inductive Reg where
  | cmd | status | srcLen | dstCap | version | prefixReg | resultLen | resultVersion | errKind | faultCause
  | errMin | errLen | errIndex | errChar | errVersion | errExpected | errGot | errGotValid
deriving DecidableEq, Repr

/-- One pending act of the HOST (R92), register accesses by their offset in the REG space (R61). -/
inductive HostLine where
  /-- `WR <register>, <value>`: a write of the slot at an offset. -/
  | wr (offset : Nat) (value : Word64)
  /-- `WRB SRC, <index>, <bytes...>`: writes of consecutive bytes of a buffer, one access a byte (R66). -/
  | wrb (space : Space) (index : Nat) (bytes : List Byte)
  /-- `CMD <mnemonic>`: a write of the mnemonic's byte to CMD. -/
  | cmd (i : Instr)
  /-- `WAIT`: reads of STATUS until STATE = DONE. -/
  | wait
  /-- `RD <register>`: a read of the slot at an offset. -/
  | rd (offset : Nat)
  /-- `RDB DST, <index>, <count>`: reads of consecutive bytes of a buffer, one access a byte. -/
  | rdb (space : Space) (index count : Nat)
  /-- A pulse of the reset input (R230), which is no line of R92. -/
  | reset
deriving DecidableEq, Repr

end Sys2Proof.Machine
end

