-- ==== Sys2Proof/Machine/State.lean ====
section
/-! DEFINITION. The state of the C32 CORE (R20) as plain data, the reasons a step can stop, and the state after reset (R47). -/

namespace Sys2Proof.Machine

/-- The control state of the sequencer (R40). -/
inductive Phase where
  | idle | args | head | hash | scan | lz | pack | flush | strip | pad | rev | verify | finish
deriving DecidableEq, Repr

/-- A buffer's written bytes, by index: strictly rising (`Memory.wf`). An unlisted index holds no written byte. -/
abbrev Memory := List Host.Cell

/-- The error record (R29 to R34). -/
structure ErrorRecord where
  errKind     : BitVec 8
  faultCause  : BitVec 8
  errMin      : Word64
  errLen      : Word64
  errIndex    : Word64
  errChar     : Byte
  errVersion  : BitVec 8
  errExpected : Quad
  errGot      : Quad
  errGotValid : BitVec 1
deriving DecidableEq, Repr

/-- The working registers of the CORE (R37 to R41), not visible to the HOST. -/
structure Working where
  carry : BitVec 12
  nbits : BitVec 4
  rp    : BitVec 33
  wp    : BitVec 33
  lz    : BitVec 33
  n     : BitVec 33
  base  : BitVec 2
  off   : BitVec 2
  ver   : BitVec 8
  chk   : Quad
  phase : Phase
  sha   : ShaUnit
deriving DecidableEq, Repr

/-- The state of the block (R20), and under it what the model adds: the parameters (log entry 1), the HOST's pending lines and
what its reads returned (log entry 3), the counters that number free values (log entry 9), and the values PHASE has taken since
the issue, oldest first (log entry 2). -/
structure State where
  cmd           : BitVec 8
  status        : BitVec 8
  srcLen        : BitVec 32
  dstCap        : BitVec 32
  version       : BitVec 8
  prefixReg     : BitVec 7
  resultLen     : Word64
  resultVersion : BitVec 8
  err           : ErrorRecord
  src           : Memory
  dst           : Memory
  work          : Working
  params        : Params
  script        : List HostLine
  reads         : List Word64
  draws         : Nat
  epoch         : Nat
  phases        : List Phase
deriving DecidableEq, Repr

/-- Why the machine stops with a fault. The block's own errors and faults (R200) are next states, not these. -/
inductive Fault where
  /-- Raised by a HOST access (WRB, RDB) in IDLE or DONE to a byte at or past the size of SRC or DST, which does not exist
  (R60). Safe: the model stops where the platform decides what happens (log entry 10). -/
  | noSuchByte (space : Space) (index : Nat)
deriving DecidableEq, Repr

/-- Why a step is refused. -/
inductive Refusal where
  /-- Raised by an arm of `exec` whose instruction has no meaning. Safe. No arm of this model raises it. -/
  | notModelled (mnemonic : String)
deriving DecidableEq, Repr

/-- The error record with every register 0 (R47, R213). -/
def ErrorRecord.zero : ErrorRecord :=
  { errKind := 0, faultCause := 0, errMin := 0, errLen := 0, errIndex := 0, errChar := 0, errVersion := 0,
    errExpected := ⟨0, 0, 0, 0⟩, errGot := ⟨0, 0, 0, 0⟩, errGotValid := 0 }

/-- Eight zero words. -/
def Words8.zero : Words8 := ⟨0, 0, 0, 0, 0, 0, 0, 0⟩

/-- DESIGN CHOICE (log entry 8): the SHA-256 unit's registers at reset, which R47 leaves unspecified, are 0. -/
def ShaUnit.atReset : ShaUnit :=
  { chain := Words8.zero, working := Words8.zero, schedule := Vector.replicate 64 0, block := Vector.replicate 64 0,
    bitLen := 0 }

/-- The working registers at reset (R47). -/
def Working.atReset : Working :=
  { carry := 0, nbits := 0, rp := 0, wp := 0, lz := 0, n := 0, base := 0, off := 0, ver := 0, chk := ⟨0, 0, 0, 0⟩,
    phase := .idle, sha := ShaUnit.atReset }

/-- The machine after reset (R47): every register 0, STATUS IDLE, PHASE P_IDLE, no byte of SRC or DST written. -/
def State.reset : State :=
  { cmd := 0, status := 0, srcLen := 0, dstCap := 0, version := 0, prefixReg := 0, resultLen := 0, resultVersion := 0,
    err := ErrorRecord.zero, src := [], dst := [], work := Working.atReset,
    params := Config.testParams, script := [], reads := [], draws := 0, epoch := 0,
    phases := [] }

end Sys2Proof.Machine
end

