-- ==== Sys2Proof/Machine/Flags.lean ====
section
/-! DEFINITION. STATUS and its one flag (R26, R44): the words STATUS holds, its fields, and the status a completion leaves. -/

namespace Sys2Proof.Machine

/-- STATUS = IDLE, ERR = 0 (R47). -/
def statusIdle : BitVec 8 := 0x00

/-- STATUS = BUSY, ERR = 0 (R26). -/
def statusBusy : BitVec 8 := 0x01

/-- STATUS.STATE, bits 1:0 (R26). -/
def stateField (status : BitVec 8) : BitVec 2 := status.extractLsb' 0 2

/-- STATUS.ERR, bit 2 (R26). -/
def errFlag (status : BitVec 8) : Bool := status.getLsbD 2

/-- STATE = IDLE (R26). -/
def State.isIdle (s : State) : Bool := stateField s.status == 0

/-- STATE = BUSY (R26). -/
def State.isBusy (s : State) : Bool := stateField s.status == 1

/-- STATE = DONE (R26). -/
def State.isDone (s : State) : Bool := stateField s.status == 2

/-- The level output `done` (R212). -/
def State.doneLine (s : State) : Bool := s.isDone

/-- The STATUS of a completed command: DONE, with ERR = 1 exactly when ERR_KIND is not 0 (R44). -/
def completionStatus (errKind : BitVec 8) : BitVec 8 := if errKind = 0 then 0x02 else 0x06

end Sys2Proof.Machine
end

