-- ==== Sys2Proof/Machine/Operands.lean ====
section
/-! DEFINITION. The operands of the commands (R83): the bytes of SRC and DST, the operand registers as naturals, and the byte
sequences the engines take. Operands are unsigned and used at their full width. -/

namespace Sys2Proof.Machine

/-- The byte written at an index, none where nothing was written. -/
def Memory.get? (m : Memory) (i : Nat) : Option Byte := (m.find? fun c => c.1 == i).map Prod.snd

/-- The memory of a buffer (R60). -/
def State.memory (sp : Space) (s : State) : Memory :=
  match sp with
  | .src => s.src
  | .dst => s.dst

/-- The number of bytes of a buffer (R4, R60). -/
def State.sizeOf (sp : Space) (s : State) : Nat :=
  match sp with
  | .src => s.params.srcSize
  | .dst => s.params.dstSize

/-- `SRC[i]` and `DST[i]` (R7): the byte last written, or the unspecified byte that stands there since reset (log entry 6). -/
def readByte (sp : Space) (i : Nat) (s : State) : Byte :=
  match (s.memory sp).get? i with
  | some v => v
  | none => Config.unwritten sp s.epoch i

/-- `SRC[start .. start + len)` (R7). -/
def srcRange (start len : Nat) (s : State) : List Byte := (List.range' start len).map fun i => readByte .src i s

/-- M, the length of the input as the HOST gave it (R8, R22). -/
def State.inputLen (s : State) : Nat := s.srcLen.toNat

/-- DST_CAP as a natural number (R23). -/
def State.capacity (s : State) : Nat := s.dstCap.toNat

/-- `zext_8(PREFIX)` (R88). -/
def State.prefixByte (s : State) : Byte := s.prefixReg.setWidth 8

/-- The four bytes of an array register in order, element 0 first (R64). -/
def quadBytes (q : Quad) : List Byte := [q.b0, q.b1, q.b2, q.b3]

/-- The first four bytes of a sequence as an array register. -/
def quadOfBytes (l : List Byte) : Quad := ⟨l.getD 0 0, l.getD 1 0, l.getD 2 0, l.getD 3 0⟩

/-- An array register as the 32 bits of its slot, element j in bits 8j+7:8j (R61). -/
def quadWord (q : Quad) : Word32 := q.b3 ++ q.b2 ++ q.b1 ++ q.b0

end Sys2Proof.Machine
end

