-- ==== Sys2Proof/Machine/Ops.lean ====
section
/-! DEFINITION. The named operations over memory and registers: writing buffers, issuing a command, the error completion of a
command (R209, the block's counterpart of taking an exception), its success, and reset. -/

namespace Sys2Proof.Machine

/-! ### Buffers -/

/-- The canonical form of a memory: indices strictly rising. An unlisted index holds no written byte, so no entry can equal what
an unlisted index holds (log entry 6). -/
abbrev Memory.wf (m : Memory) : Prop := m.Pairwise fun c d => c.1 < d.1

/-- Every listed index is below a buffer's size. -/
abbrev Memory.below (n : Nat) (m : Memory) : Prop := ∀ c ∈ m, c.1 < n

/-- The cells of consecutive bytes. -/
def cellsFrom : Nat → List Byte → Memory
  | _, [] => []
  | i, b :: bs => (i, b) :: cellsFrom (i + 1) bs

/-- A memory after writing consecutive bytes at an index: every write of the model goes through it. -/
def Memory.putRange (m : Memory) (start : Nat) (bytes : List Byte) : Memory :=
  (m.filter fun c => decide (c.1 < start)) ++ cellsFrom start bytes ++
    (m.filter fun c => decide (start + bytes.length ≤ c.1))

/-- The state after writing consecutive bytes of a buffer. -/
def writeBytes (sp : Space) (start : Nat) (bytes : List Byte) (s : State) : State :=
  match sp with
  | .src => { s with src := s.src.putRange start bytes }
  | .dst => { s with dst := s.dst.putRange start bytes }

/-- The "any value" bytes of one draw at consecutive indices (R67). -/
def leftovers (draw start count : Nat) : List Byte := (List.range' start count).map (Config.leftover draw)

/-- DST[start .. stop) takes any value (R67): fresh free values (log entry 5). -/
def scratch (start stop : Nat) (s : State) : State :=
  { writeBytes .dst start (leftovers s.draws start (stop - start)) s with draws := s.draws + 1 }

/-! ### Phases and issue -/

/-- PHASE passes through these values in order (R40). -/
def goThrough (ps : List Phase) (s : State) : State :=
  { s with work := { s.work with phase := ps.getLastD s.work.phase }, phases := s.phases ++ ps }

/-- The working registers at the start of a command (R43): all 0, PHASE P_ARGS; the SHA-256 unit is not touched. -/
def Working.atIssue (w : Working) : Working := { Working.atReset with phase := .args, sha := w.sha }

/-- What an issue does before anything else (R213, R40 P_ARGS): result and error registers 0, working registers 0, STATUS BUSY. -/
def beginCommand (s : State) : State :=
  { s with resultLen := 0, resultVersion := 0, err := ErrorRecord.zero, status := statusBusy, work := s.work.atIssue,
           phases := [.args] }

/-- A command issue: the byte is stored in CMD and the command begins (R21). -/
def issue (b : Byte) (s : State) : State := beginCommand { s with cmd := b }

/-- The one thing resembling a fetch (R73): the byte in CMD, decoded (R40 P_ARGS). -/
def fetch (s : State) : Decoded := decode [s.cmd]

/-! ### Error completion -/

/-- The causes of a fault (R208). -/
inductive FaultCause where
  | illegalCommand
  | shortFrame
  | internalInvariant
  | lengthOutOfRange
deriving DecidableEq, Repr

/-- FAULT_CAUSE (R208). -/
def FaultCause.code : FaultCause → BitVec 8
  | .illegalCommand    => 1
  | .shortFrame        => 2
  | .internalInvariant => 3
  | .lengthOutOfRange  => 4

/-- The ways a command fails, with the fields of each kind (R201). -/
inductive CommandError where
  | bufferTooSmall (min len : Nat)
  | invalidCharacter (char : Byte) (index : Nat)
  | missingPrefix (expected : Byte) (got : Option Byte)
  | invalidVersion (version : BitVec 8)
  | insufficientData (min len : Nat)
  | checksumMismatch (expected got : Quad)
  | faulted (cause : FaultCause)
deriving DecidableEq, Repr

/-- The error record of a failure: its code (R201), its fields (R202 to R208), every other field 0. -/
def CommandError.record : CommandError → ErrorRecord
  | .bufferTooSmall min len =>
    { ErrorRecord.zero with errKind := 1, errMin := BitVec.ofNat 64 min, errLen := BitVec.ofNat 64 len }
  | .invalidCharacter char index =>
    { ErrorRecord.zero with errKind := 2, errChar := char, errIndex := BitVec.ofNat 64 index }
  | .missingPrefix expected none =>
    { ErrorRecord.zero with errKind := 3, errExpected := ⟨expected, 0, 0, 0⟩ }
  | .missingPrefix expected (some got) =>
    { ErrorRecord.zero with errKind := 3, errExpected := ⟨expected, 0, 0, 0⟩, errGot := ⟨got, 0, 0, 0⟩, errGotValid := 1 }
  | .invalidVersion version =>
    { ErrorRecord.zero with errKind := 4, errVersion := version }
  | .insufficientData min len =>
    { ErrorRecord.zero with errKind := 5, errMin := BitVec.ofNat 64 min, errLen := BitVec.ofNat 64 len }
  | .checksumMismatch expected got =>
    { ErrorRecord.zero with errKind := 6, errExpected := expected, errGot := got, errGotValid := 1 }
  | .faulted cause =>
    { ErrorRecord.zero with errKind := 7, faultCause := cause.code }

/-- The failures that leave DST unchanged (R67); after any other DST[0..DST_CAP) holds any value. -/
def CommandError.keepsDst : CommandError → Bool
  | .bufferTooSmall _ _ => true
  | .invalidCharacter _ _ => false
  | .missingPrefix _ _ => false
  | .invalidVersion _ => false
  | .insufficientData _ _ => false
  | .checksumMismatch _ _ => false
  | .faulted .illegalCommand => true
  | .faulted .lengthOutOfRange => true
  | .faulted .shortFrame => false
  | .faulted .internalInvariant => false

/-- DST after a failure (R67). -/
def dstAfterError (e : CommandError) (s : State) : State := if e.keepsDst then s else scratch 0 s.capacity s

/-- The error completion `raise K(fields)` (R209): the record, RESULT_LEN and RESULT_VERSION 0, STATUS DONE with ERR = 1, PHASE
to P_FINISH and P_IDLE. Nothing else is saved and control goes nowhere. -/
def raise (e : CommandError) (s : State) : State :=
  goThrough [.finish, .idle] { dstAfterError e s with
    err := e.record, resultLen := 0, resultVersion := 0, status := completionStatus e.record.errKind }

/-- Issuing a byte that is no command (R82): the command completes at once with the fault IllegalCommand. -/
def illegalCommand (s : State) : State := raise (.faulted .illegalCommand) (beginCommand s)

/-! ### Success -/

/-- Success of a command whose result is in registers alone: RESULT_LEN, RESULT_VERSION, STATUS DONE with ERR = 0 (R27, R28). -/
def finishWith (len : Nat) (version : BitVec 5) (s : State) : State :=
  goThrough [.finish, .idle] { s with
    resultLen := BitVec.ofNat 64 len, resultVersion := version.setWidth 8, status := completionStatus s.err.errKind }

/-- Success of a buffer command: DST[0..RESULT_LEN) is the result, DST[RESULT_LEN..DST_CAP) any value (R67). -/
def succeed (result : List Byte) (version : BitVec 5) (s : State) : State :=
  finishWith result.length version (scratch result.length s.capacity (writeBytes .dst 0 result s))

/-! ### Tests shared by the commands, and working registers -/

/-- The test of the fault LengthOutOfRange (R208). -/
def State.lengthOutOfRange (s : State) : Bool :=
  decide (s.params.srcSize < s.inputLen) || decide (s.params.dstSize < s.capacity)

/-- The prefix test of the prefixed decode commands (R204): the error, or none when SRC[0] is the prefix. -/
def prefixError (s : State) : Option CommandError :=
  if s.inputLen = 0 then some (.missingPrefix s.prefixByte none)
  else if readByte .src 0 s ≠ s.prefixByte then some (.missingPrefix s.prefixByte (some (readByte .src 0 s)))
  else none

/-- VER <- v (R39). -/
def setVer (v : BitVec 8) (s : State) : State := { s with work := { s.work with ver := v } }

/-- CHK[0..3] <- q by a run of the SHA-256 unit, whose registers then hold any value (R39, U12, log entry 8). -/
def setChk (q : Quad) (s : State) : State :=
  { s with work := { s.work with chk := q, sha := Config.shaLeftover s.draws }, draws := s.draws + 1 }

/-! ### Reset -/

/-- The registers at their reset values (R47); the buffers, the parameters, the HOST's side and the counters as they were. -/
def resetRegisters (s : State) : State :=
  { State.reset with
    src := s.src, dst := s.dst, params := s.params, script := s.script, reads := s.reads, draws := s.draws,
    epoch := s.epoch }

/-- A pulse of the reset input. While BUSY it abandons the command: DST[0..DST_CAP) any value, the rest of DST and SRC unchanged
(R231). Otherwise the contents of SRC and DST become unspecified (R230): nothing is written any more and a new epoch of
unspecified bytes begins (log entry 12). -/
def resetInput (s : State) : State :=
  if s.isBusy then resetRegisters (scratch 0 (min s.capacity s.params.dstSize) s)
  else { resetRegisters s with src := [], dst := [], epoch := s.epoch + 1 }

end Sys2Proof.Machine
end

