-- ==== Sys2Proof/Machine/Capacity.lean ====
section
/-! DEFINITION. The capacity functions (R110 to R113, R119), in exact arithmetic on naturals (R118), and the four capacity
commands (R114 to R117). -/

namespace Sys2Proof.Machine

/-- R110. -/
def encodedLength (n : Nat) : Nat := (n * 8 + 4) / 5

/-- R111. -/
def decodedLength (n : Nat) : Nat := n

/-- R112. -/
def encodedCheckLength (n : Nat) : Nat := 1 + encodedLength (n + 4)

/-- R113. -/
def decodedCheckLength (n : Nat) : Nat := n

/-- ENCLEN (R114). -/
def execEnclen (s : State) : Host.Outcome State Fault Refusal :=
  .next (finishWith (encodedLength s.inputLen) 0 (beginCommand s))

/-- DECLEN (R115). -/
def execDeclen (s : State) : Host.Outcome State Fault Refusal :=
  .next (finishWith (decodedLength s.inputLen) 0 (beginCommand s))

/-- ENCCHKLEN (R116). -/
def execEncchklen (s : State) : Host.Outcome State Fault Refusal :=
  .next (finishWith (encodedCheckLength s.inputLen) 0 (beginCommand s))

/-- DECCHKLEN (R117). -/
def execDecchklen (s : State) : Host.Outcome State Fault Refusal :=
  .next (finishWith (decodedCheckLength s.inputLen) 0 (beginCommand s))

end Sys2Proof.Machine
end

