-- ==== Sys2Proof/Machine/Repacker.lean ====
section
/-! DEFINITION. What the two engines share: the carry chain (R122, R143) and the bit_repacker's strip, pad and reverse (R124 to
R126, R145 to R147). The emitted sequence is kept newest first, so that its head is DST[BASE+WP-1]. -/

namespace Sys2Proof.Machine

/-- The carry chain's registers and what it has emitted: CARRY, NBITS, and DST[BASE .. BASE+WP) newest first. NBITS is a natural
number here; that it stays within its 4 bits is R37 (log entry 17). -/
structure Chain where
  carry   : BitVec 12
  nbits   : Nat
  emitted : List Byte
deriving DecidableEq, Repr

/-- CARRY, NBITS and WP at 0 (R122, R143). -/
def Chain.start : Chain := { carry := 0, nbits := 0, emitted := [] }

/-- A new byte or symbol of `width` bits goes above the held bits (R63). -/
def Chain.absorb (v : BitVec 12) (width : Nat) (c : Chain) : Chain :=
  { c with carry := c.carry ||| (v <<< c.nbits), nbits := c.nbits + width }

/-- Emits one byte and drops `width` bits of the carry. -/
def Chain.emit (width : Nat) (toByte : BitVec 12 → Byte) (c : Chain) : Chain :=
  { carry := c.carry >>> width, nbits := c.nbits - width, emitted := toByte c.carry :: c.emitted }

/-- `while NBITS >= width: emit`, for at most `fuel` turns. -/
def Chain.drain (width : Nat) (toByte : BitVec 12 → Byte) : Nat → Chain → Chain
  | 0, c => c
  | fuel + 1, c => if width ≤ c.nbits then Chain.drain width toByte fuel (c.emit width toByte) else c

/-- CARRY <- 0 ; NBITS <- 0, at the end of a flush (R123, R144). -/
def Chain.clear (c : Chain) : Chain := { c with carry := 0, nbits := 0 }

/-- LZ, the length of the longest prefix of zeros `z` (R121, R142). -/
def leadingCount (z : Byte) (input : List Byte) : Nat := (input.takeWhile fun b => b == z).length

/-- `while WP > 0 and DST[BASE+WP-1] == z: WP <- WP - 1` (R124, R145), on a sequence kept newest first. -/
def stripZeros (z : Byte) (emitted : List Byte) : List Byte := emitted.dropWhile fun b => b == z

/-- `repeat LZ times: DST[BASE+WP] <- z` (R125, R146), on a sequence kept newest first. -/
def padZeros (z : Byte) (count : Nat) (emitted : List Byte) : List Byte := List.replicate count z ++ emitted

/-- What DST holds from BASE on, index order, while the emitted sequence is this one. -/
def inDstOrder (emitted : List Byte) : List Byte := emitted.reverse

/-- The in-place reversal of DST[BASE .. BASE+WP) (R126, R147). -/
def reverseInPlace (bytes : List Byte) : List Byte := bytes.reverse

/-- Steps strip, pad and reverse in their fixed order (R125, R126): what DST holds from BASE on afterwards. -/
def repack (z : Byte) (lz : Nat) (emitted : List Byte) : List Byte :=
  reverseInPlace (inDstOrder (padZeros z lz (stripZeros z emitted)))

/-- A completed engine run: N, LZ, the highest value WP had, and the result DST[BASE .. BASE+WP). -/
structure EngineRun where
  n      : Nat
  lz     : Nat
  peak   : Nat
  result : List Byte
deriving DecidableEq, Repr

/-- Steps strip, pad and reverse as a completed run over `n` bytes of which the first `lz` are zeros (R124 to R126, R145 to
R147). -/
def finishRun (z : Byte) (lz n : Nat) (c : Chain) : EngineRun :=
  let result := repack z lz c.emitted
  { n := n, lz := lz, peak := max c.emitted.length result.length, result := result }

/-- The working registers a completed run leaves (R122 to R126, R143 to R147; log entry 11). -/
def EngineRun.load (r : EngineRun) (base off : BitVec 2) (s : State) : State :=
  { s with
    work := { s.work with
      carry := 0, nbits := 0, rp := 0, wp := BitVec.ofNat 33 r.result.length, lz := BitVec.ofNat 33 r.lz,
      n := BitVec.ofNat 33 r.n, base := base, off := off } }

/-- The phases of a completed engine run, from the count of zeros on (R40). -/
def enginePhases : List Phase := [.lz, .pack, .flush, .strip, .pad, .rev]

/-- The phases of a run that ends in its packing loop (R40). -/
def packPhases : List Phase := [.lz, .pack]

end Sys2Proof.Machine
end

