-- ==== Sys2Proof/Machine/Tables.lean ====
section
/-! DEFINITION. The constant tables ALPHABET (R84) and DLUT (R85): the crockford_decode_lut. They are constants, not state (R42). -/

namespace Sys2Proof.Machine

/-- ALPHABET, the codes of R84 in order. -/
def alphabet : List (BitVec 7) :=
  [0x30, 0x31, 0x32, 0x33, 0x34, 0x35, 0x36, 0x37, 0x38, 0x39, 0x41, 0x42, 0x43, 0x44, 0x45, 0x46,
   0x47, 0x48, 0x4A, 0x4B, 0x4D, 0x4E, 0x50, 0x51, 0x52, 0x53, 0x54, 0x56, 0x57, 0x58, 0x59, 0x5A]

/-- `zext_8(ALPHABET[k])`. -/
def symbol (k : BitVec 5) : Byte := (alphabet.getD k.toNat 0).setWidth 8

/-- The zero-character `'0'`, ALPHABET[0] (R8). -/
def zeroChar : Byte := 0x30

/-- Rows 0x30 and 0x40 of the grid of R85. -/
def dlutRows34 : List (Option (BitVec 5)) :=
  [some 0, some 1, some 2, some 3, some 4, some 5, some 6, some 7, some 8, some 9, none, none, none, none, none, none] ++
  [none, some 10, some 11, some 12, some 13, some 14, some 15, some 16, some 17, some 1, some 18, some 19, some 1, some 20,
   some 21, some 0]

/-- Row 0x50 of the grid of R85. -/
def dlutRow5 : List (Option (BitVec 5)) :=
  [some 22, some 23, some 24, some 25, some 26, none, some 27, some 28, some 29, some 30, some 31, none, none, none, none,
   none]

/-- The 128 entries of DLUT, the grid of R85 row by row; `none` is `invalid`, a separate valid bit (R86). -/
def dlutTable : List (Option (BitVec 5)) :=
  List.replicate 48 none ++ dlutRows34 ++ dlutRow5 ++ List.replicate 32 none

/-- `DLUT[c]` (R85). -/
def dlut (c : BitVec 7) : Option (BitVec 5) := dlutTable.getD c.toNat none

/-- The 5-bit value of an input byte: none for a byte >= 128 and for a byte DLUT marks invalid (R203). -/
def symbolValue (c : Byte) : Option (BitVec 5) := if c.getLsbD 7 then none else dlut (c.setWidth 7)

end Sys2Proof.Machine
end

