-- ==== Sys2Proof/Machine/DecodeEngine.lean ====
section
/-! DEFINITION. The base32_decode_engine (R140 to R147) with its use of the DLUT. -/

namespace Sys2Proof.Machine

/-- The failure of a decode run: the offending byte, its index in the run's input, and the registers at that moment. -/
structure BadSymbol where
  char  : Byte
  index : Nat
  lz    : Nat
  chain : Chain
deriving DecidableEq, Repr

/-- A decode run or a part of one: what it gives, or the invalid symbol that ended it. -/
inductive Unpacked (α : Type) where
  | ok (value : α)
  | bad (b : BadSymbol)
deriving DecidableEq, Repr

/-- The ASCII pass, forward from index `i`: the first byte >= 128 and its index (R141). -/
def asciiPass : Nat → List Byte → Option (Nat × Byte)
  | _, [] => none
  | i, c :: cs => if c.getLsbD 7 then some (i, c) else asciiPass (i + 1) cs

/-- `CARRY[7:0]`. -/
def lowByte (carry : BitVec 12) : Byte := carry.setWidth 8

/-- One turn of the outer loop of R143 for a valid index k: absorb it, then emit while NBITS >= 8. -/
def unpackSymbol (k : BitVec 5) (c : Chain) : Chain :=
  let c := c.absorb (k.setWidth 12) 5
  Chain.drain 8 lowByte c.nbits c

/-- The lookup and unpacking chain from the last symbol to the first, the head of the list at index `i` (R143). -/
def unpackAll (lz : Nat) : Nat → List Byte → Unpacked Chain
  | _, [] => .ok Chain.start
  | i, c :: cs =>
    match unpackAll lz (i + 1) cs with
    | .bad b => .bad b
    | .ok chain =>
      match dlut (c.setWidth 7) with
      | none => .bad { char := c, index := i, lz := lz, chain := chain }
      | some k => .ok (unpackSymbol k chain)

/-- The final flush, which emits even a zero residual (R144). -/
def flushByte (c : Chain) : Chain :=
  if 0 < c.nbits then { c with emitted := lowByte c.carry :: c.emitted }.clear else c.clear

/-- A run of the decode engine (R140): steps 1 to 7 in order. -/
def decodeRun (input : List Byte) : Unpacked EngineRun :=
  match asciiPass 0 input with
  | some (i, c) => .bad { char := c, index := i, lz := 0, chain := Chain.start }
  | none =>
    match unpackAll (leadingCount zeroChar input) 0 input with
    | .bad b => .bad b
    | .ok chain => .ok (finishRun 0 (leadingCount zeroChar input) input.length (flushByte chain))

/-- The value a decode run computes, `DEC(IN)`, none when it raises InvalidCharacter (R140). -/
def decBytes (input : List Byte) : Option (List Byte) :=
  match decodeRun input with
  | .ok r => some r.result
  | .bad _ => none

/-- The phases a decode run passes from the ASCII pass to the invalid symbol that ends it: the ASCII pass alone meets a byte
>= 128 (R40, R141, R143). -/
def BadSymbol.phases (b : BadSymbol) : List Phase := if b.char.getLsbD 7 then [.scan] else .scan :: packPhases

/-- The working registers an interrupted run leaves (R141, R143; log entry 11). RP is the index of the lookup pass; the ASCII
pass, which alone meets a byte >= 128, comes before it and does not use RP. -/
def BadSymbol.load (b : BadSymbol) (n : Nat) (off : BitVec 2) (s : State) : State :=
  { s with
    work := { s.work with
      carry := b.chain.carry, nbits := BitVec.ofNat 4 b.chain.nbits,
      rp := if b.char.getLsbD 7 then 0 else BitVec.ofNat 33 b.index, wp := BitVec.ofNat 33 b.chain.emitted.length,
      lz := BitVec.ofNat 33 b.lz, n := BitVec.ofNat 33 n, base := 0, off := off } }

end Sys2Proof.Machine
end

