-- ==== Sys2Proof/Machine/EncodeEngine.lean ====
section
/-! DEFINITION. The base32_encode_engine (R120 to R126). -/

namespace Sys2Proof.Machine

/-- `zext_8(ALPHABET[CARRY[4:0]])`. -/
def lowSymbol (carry : BitVec 12) : Byte := symbol (carry.setWidth 5)

/-- One turn of the outer loop of R122: absorb a byte, then emit while NBITS >= 5. -/
def packByte (b : Byte) (c : Chain) : Chain :=
  let c := c.absorb (b.setWidth 12) 8
  Chain.drain 5 lowSymbol c.nbits c

/-- The carry chain over the whole input, from its last byte to its first (R122). -/
def packAll (input : List Byte) : Chain := input.foldr packByte Chain.start

/-- The final flush: one symbol when residual bits remain and are not all zero (R123). -/
def flushSymbol (c : Chain) : Chain :=
  if 0 < c.nbits ∧ c.carry ≠ 0 then { c with emitted := lowSymbol c.carry :: c.emitted }.clear else c.clear

/-- A run of the encode engine (R120): steps 1 to 7 in order. -/
def encodeRun (input : List Byte) : EngineRun :=
  finishRun zeroChar (leadingCount 0 input) input.length (flushSymbol (packAll input))

/-- The value an encode run computes, `ENC(IN)` (R120). -/
def encBytes (input : List Byte) : List Byte := (encodeRun input).result

/-- An encode command from its engine run on (R128, R129, R161, R162): `head` is what stands below BASE (prefix byte, version
symbol). The run that would pass DST_CAP is the fault InternalInvariant (R208). -/
def encodeInto (head input : List Byte) (s : State) : State :=
  let r := encodeRun input
  let s := r.load (BitVec.ofNat 2 head.length) 0 s
  if s.capacity < head.length + r.peak then raise (.faulted .internalInvariant) (goThrough packPhases s)
  else succeed (head ++ r.result) 0 (goThrough enginePhases s)

end Sys2Proof.Machine
end

