-- ==== Sys2Proof/Machine/Sha256.lean ====
section
/-! DEFINITION. The SHA-256 unit as a function (R180 to R187), and the checksum (R160). -/

namespace Sys2Proof.Machine

/-- K[0..31] (R182). -/
def shaRoundConstantsLow : List Word32 :=
  [0x428a2f98, 0x71374491, 0xb5c0fbcf, 0xe9b5dba5, 0x3956c25b, 0x59f111f1, 0x923f82a4, 0xab1c5ed5] ++
  [0xd807aa98, 0x12835b01, 0x243185be, 0x550c7dc3, 0x72be5d74, 0x80deb1fe, 0x9bdc06a7, 0xc19bf174] ++
  [0xe49b69c1, 0xefbe4786, 0x0fc19dc6, 0x240ca1cc, 0x2de92c6f, 0x4a7484aa, 0x5cb0a9dc, 0x76f988da] ++
  [0x983e5152, 0xa831c66d, 0xb00327c8, 0xbf597fc7, 0xc6e00bf3, 0xd5a79147, 0x06ca6351, 0x14292967]

/-- K[32..63] (R182). -/
def shaRoundConstantsHigh : List Word32 :=
  [0x27b70a85, 0x2e1b2138, 0x4d2c6dfc, 0x53380d13, 0x650a7354, 0x766a0abb, 0x81c2c92e, 0x92722c85] ++
  [0xa2bfe8a1, 0xa81a664b, 0xc24b8b70, 0xc76c51a3, 0xd192e819, 0xd6990624, 0xf40e3585, 0x106aa070] ++
  [0x19a4c116, 0x1e376c08, 0x2748774c, 0x34b0bcb5, 0x391c0cb3, 0x4ed8aa4a, 0x5b9cca4f, 0x682e6ff3] ++
  [0x748f82ee, 0x78a5636f, 0x84c87814, 0x8cc70208, 0x90befffa, 0xa4506ceb, 0xbef9a3f7, 0xc67178f2]

/-- K[0..63] (R182). -/
def shaRoundConstants : List Word32 := shaRoundConstantsLow ++ shaRoundConstantsHigh

/-- The initial chaining value (R183). -/
def shaInitial : Words8 :=
  { a := 0x6a09e667, b := 0xbb67ae85, c := 0x3c6ef372, d := 0xa54ff53a,
    e := 0x510e527f, f := 0x9b05688c, g := 0x1f83d9ab, h := 0x5be0cd19 }

/-- ROTR (44_sha256.md). -/
def rotr (x : Word32) (n : Nat) : Word32 := (x >>> n) ||| (x <<< (32 - n))

/-- R184. -/
def shaCh (x y z : Word32) : Word32 := (x &&& y) ^^^ (~~~x &&& z)

/-- R184. -/
def shaMaj (x y z : Word32) : Word32 := (x &&& y) ^^^ (x &&& z) ^^^ (y &&& z)

/-- R184. -/
def bigSigma0 (x : Word32) : Word32 := rotr x 2 ^^^ rotr x 13 ^^^ rotr x 22

/-- R184. -/
def bigSigma1 (x : Word32) : Word32 := rotr x 6 ^^^ rotr x 11 ^^^ rotr x 25

/-- R184. -/
def smallSigma0 (x : Word32) : Word32 := rotr x 7 ^^^ rotr x 18 ^^^ (x >>> 3)

/-- R184. -/
def smallSigma1 (x : Word32) : Word32 := rotr x 17 ^^^ rotr x 19 ^^^ (x >>> 10)

/-- A number as `count` bytes, most significant first. -/
def bigEndianBytes : Nat → Nat → List Byte
  | 0, _ => []
  | count + 1, x => BitVec.ofNat 8 (x / 256 ^ count) :: bigEndianBytes count x

/-- The number z of zero bytes of the padding (R181). -/
def shaZeroCount (len : Nat) : Nat := (119 - len % 64) % 64

/-- The padded message (R181). -/
def shaPad (m : List Byte) : List Byte :=
  m ++ [0x80] ++ List.replicate (shaZeroCount m.length) 0 ++ bigEndianBytes 8 (8 * m.length)

/-- A word from four bytes, most significant first (R185). -/
def wordOfBytes (b0 b1 b2 b3 : Byte) : Word32 := b0 ++ b1 ++ b2 ++ b3

/-- W[0..15] of a block, newest first. -/
def blockWords : List Byte → List Word32 → List Word32
  | b0 :: b1 :: b2 :: b3 :: rest, acc => blockWords rest (wordOfBytes b0 b1 b2 b3 :: acc)
  | _, acc => acc

/-- `count` further words of the schedule, on the words so far newest first (R185). -/
def extendSchedule : Nat → List Word32 → List Word32
  | 0, ws => ws
  | count + 1, ws =>
    extendSchedule count
      ((smallSigma1 (ws.getD 1 0) + ws.getD 6 0 + smallSigma0 (ws.getD 14 0) + ws.getD 15 0) :: ws)

/-- W[0..63] of a block (R185). -/
def shaSchedule (block : List Byte) : List Word32 := (extendSchedule 48 (blockWords block [])).reverse

/-- One round (R185), with its constant and its schedule word. -/
def shaRound (v : Words8) (kw : Word32 × Word32) : Words8 :=
  let t1 := v.h + bigSigma1 v.e + shaCh v.e v.f v.g + kw.1 + kw.2
  let t2 := bigSigma0 v.a + shaMaj v.a v.b v.c
  { a := t1 + t2, b := v.a, c := v.b, d := v.c, e := v.d + t1, f := v.e, g := v.f, h := v.g }

/-- The compression of one block into the chaining value (R185). -/
def shaCompress (chain : Words8) (block : List Byte) : Words8 :=
  let v := (shaRoundConstants.zip (shaSchedule block)).foldl shaRound chain
  { a := chain.a + v.a, b := chain.b + v.b, c := chain.c + v.c, d := chain.d + v.d,
    e := chain.e + v.e, f := chain.f + v.f, g := chain.g + v.g, h := chain.h + v.h }

/-- The first `count` blocks of 64 bytes (R181). -/
def shaBlocks : Nat → List Byte → List (List Byte)
  | 0, _ => []
  | count + 1, m => m.take 64 :: shaBlocks count (m.drop 64)

/-- A word as four bytes, most significant first (R187). -/
def wordBytes (w : Word32) : List Byte :=
  [w.extractLsb' 24 8, w.extractLsb' 16 8, w.extractLsb' 8 8, w.extractLsb' 0 8]

/-- The digest of a chaining value (R187). -/
def shaDigest (v : Words8) : List Byte :=
  wordBytes v.a ++ wordBytes v.b ++ wordBytes v.c ++ wordBytes v.d ++
    wordBytes v.e ++ wordBytes v.f ++ wordBytes v.g ++ wordBytes v.h

/-- `SHA256(m)` (R180, R186). -/
def sha256 (m : List Byte) : List Byte :=
  shaDigest ((shaBlocks ((shaPad m).length / 64) (shaPad m)).foldl shaCompress shaInitial)

/-- `compute(payload, version)` (R160). -/
def compute (payload : List Byte) (version : BitVec 8) : Quad := quadOfBytes (sha256 (sha256 (version :: payload)))

end Sys2Proof.Machine
end

