-- ==== Sys2Proof/Machine/ChecksumCommands.lean ====
section
/-! DEFINITION. The checksum_composer: ENCODE_CHECK, ENCODE_CHECK_P, DECODE_CHECK, DECODE_CHECK_P (R161 to R167). -/

namespace Sys2Proof.Machine

/-- Encode with checksum from the capacity test on (R161, R162); `head` is the prefix byte or nothing. -/
def encodeCheckInto (head : List Byte) (s : State) : State :=
  let payload := srcRange 0 s.inputLen s
  let min := head.length + encodedCheckLength s.inputLen
  if s.capacity < min then raise (.bufferTooSmall min s.capacity) s
  else
    let ver := s.version
    let s := setVer ver s
    if 32 ≤ ver.toNat then raise (.invalidVersion ver) s
    else
      let chk := compute payload ver
      encodeInto (head ++ [symbol (ver.setWidth 5)]) (payload ++ quadBytes chk)
        (setChk chk (goThrough [.head, .hash] s))

/-- ENCODE_CHECK (R161). -/
def execEncodeCheck (s : State) : Host.Outcome State Fault Refusal :=
  let s := beginCommand s
  .next <| if s.lengthOutOfRange then raise (.faulted .lengthOutOfRange) s else encodeCheckInto [] s

/-- ENCODE_CHECK_P (R162). -/
def execEncodeCheckP (s : State) : Host.Outcome State Fault Refusal :=
  let s := beginCommand s
  .next <| if s.lengthOutOfRange then raise (.faulted .lengthOutOfRange) s else encodeCheckInto [s.prefixByte] s

/-- The split of a decoded unit, the recomputation and the comparison (R163, R167, phases P_HASH and P_VERIFY). -/
def verifyUnit (unit : List Byte) (ver : BitVec 8) (s : State) : State :=
  if unit.length < 4 then raise (.faulted .shortFrame) s
  else
    let payload := unit.take (unit.length - 4)
    let got := quadOfBytes (unit.drop (unit.length - 4))
    let chk := compute payload ver
    let s := setChk chk (goThrough [.hash, .verify] s)
    if chk ≠ got then raise (.checksumMismatch chk got) s else succeed payload (ver.setWidth 5) s

/-- The unprefixed decode-with-checksum path on SRC[off..M) (R163, R164, R165). -/
def decodeCheckSlice (off : Nat) (s : State) : State :=
  let len := s.inputLen - off
  if s.capacity < decodedCheckLength len then raise (.bufferTooSmall (decodedCheckLength len) s.capacity) s
  else if len < 2 then raise (.insufficientData 2 len) s
  else
    let s := goThrough [.head] s
    match symbolValue (readByte .src off s) with
    | none => raise (.invalidCharacter (readByte .src off s) off) s
    | some k =>
      let ver : BitVec 8 := k.setWidth 8
      let s := setVer ver s
      if 32 ≤ ver.toNat then raise (.invalidVersion ver) s
      else
        match decodeRun (srcRange (off + 1) (len - 1) s) with
        | .bad b =>
          raise (.invalidCharacter b.char (off + 1 + b.index))
            (goThrough b.phases (b.load (len - 1) (BitVec.ofNat 2 (off + 1)) s))
        | .ok r =>
          let s := r.load 0 (BitVec.ofNat 2 (off + 1)) s
          if s.capacity < r.peak then raise (.faulted .internalInvariant) (goThrough (.scan :: packPhases) s)
          else verifyUnit r.result ver (goThrough (.scan :: enginePhases) s)

/-- DECODE_CHECK (R163). -/
def execDecodeCheck (s : State) : Host.Outcome State Fault Refusal :=
  let s := beginCommand s
  .next <| if s.lengthOutOfRange then raise (.faulted .lengthOutOfRange) s else decodeCheckSlice 0 s

/-- DECODE_CHECK_P (R164). -/
def execDecodeCheckP (s : State) : Host.Outcome State Fault Refusal :=
  let s := beginCommand s
  .next <|
    if s.lengthOutOfRange then raise (.faulted .lengthOutOfRange) s
    else
      match prefixError s with
      | some e => raise e s
      | none => decodeCheckSlice 1 s

end Sys2Proof.Machine
end

