-- ==== Sys2Proof/Machine/DecodeCommands.lean ====
section
/-! DEFINITION. DECODE and DECODE_P (R149, R150). -/

namespace Sys2Proof.Machine

/-- The unprefixed decode path on SRC[off..M) (R149, R150): its lengths are the slice's, its indices SRC's (R211). -/
def decodeSlice (off : Nat) (s : State) : State :=
  let len := s.inputLen - off
  if s.capacity < decodedLength len then raise (.bufferTooSmall (decodedLength len) s.capacity) s
  else
    match decodeRun (srcRange off len s) with
    | .bad b =>
      raise (.invalidCharacter b.char (off + b.index)) (goThrough b.phases (b.load len (BitVec.ofNat 2 off) s))
    | .ok r =>
      let s := r.load 0 (BitVec.ofNat 2 off) s
      if s.capacity < r.peak then raise (.faulted .internalInvariant) (goThrough (.scan :: packPhases) s)
      else succeed r.result 0 (goThrough (.scan :: enginePhases) s)

/-- DECODE (R149). -/
def execDecode (s : State) : Host.Outcome State Fault Refusal :=
  let s := beginCommand s
  .next <| if s.lengthOutOfRange then raise (.faulted .lengthOutOfRange) s else decodeSlice 0 s

/-- DECODE_P (R150). -/
def execDecodeP (s : State) : Host.Outcome State Fault Refusal :=
  let s := beginCommand s
  .next <|
    if s.lengthOutOfRange then raise (.faulted .lengthOutOfRange) s
    else
      match prefixError s with
      | some e => raise e s
      | none => decodeSlice 1 s

end Sys2Proof.Machine
end

