-- ==== Sys2Proof/Machine/EncodeCommands.lean ====
section
/-! DEFINITION. ENCODE and ENCODE_P (R128, R129). -/

namespace Sys2Proof.Machine

/-- ENCODE (R128). -/
def execEncode (s : State) : Host.Outcome State Fault Refusal :=
  let s := beginCommand s
  let m := s.inputLen
  .next <|
    if s.lengthOutOfRange then raise (.faulted .lengthOutOfRange) s
    else if s.capacity < encodedLength m then raise (.bufferTooSmall (encodedLength m) s.capacity) s
    else encodeInto [] (srcRange 0 m s) s

/-- ENCODE_P (R129). -/
def execEncodeP (s : State) : Host.Outcome State Fault Refusal :=
  let s := beginCommand s
  let m := s.inputLen
  .next <|
    if s.lengthOutOfRange then raise (.faulted .lengthOutOfRange) s
    else if s.capacity < 1 + encodedLength m then raise (.bufferTooSmall (1 + encodedLength m) s.capacity) s
    else encodeInto [s.prefixByte] (srcRange 0 m s) (goThrough [.head] s)

end Sys2Proof.Machine
end

