-- ==== Sys2Proof/Machine/Dispatch.lean ====
section
/-! DEFINITION. One arm for each command (R81). -/

namespace Sys2Proof.Machine

/-- A command from its issue to its completion, as one step (R68). -/
def exec (i : Instr) (s : State) : Host.Outcome State Fault Refusal :=
  match i with
  | .encode => Sys2Proof.Machine.execEncode s
  | .decode => Sys2Proof.Machine.execDecode s
  | .encodeCheck => Sys2Proof.Machine.execEncodeCheck s
  | .decodeCheck => Sys2Proof.Machine.execDecodeCheck s
  | .enclen => Sys2Proof.Machine.execEnclen s
  | .declen => Sys2Proof.Machine.execDeclen s
  | .encchklen => Sys2Proof.Machine.execEncchklen s
  | .decchklen => Sys2Proof.Machine.execDecchklen s
  | .encodeP => Sys2Proof.Machine.execEncodeP s
  | .decodeP => Sys2Proof.Machine.execDecodeP s
  | .encodeCheckP => Sys2Proof.Machine.execEncodeCheckP s
  | .decodeCheckP => Sys2Proof.Machine.execDecodeCheckP s

end Sys2Proof.Machine
end

