-- ==== Sys2Proof/Machine/Bus.lean ====
section
/-! DEFINITION. The HOST's side of the block: the register map (R61), register and buffer accesses in every STATE (R66 to R69),
and one act of the HOST (R92, R230). -/

namespace Sys2Proof.Machine

/-- The offsets of the register map (R61). -/
def regOffset : Reg → Nat
  | .cmd => 0x00
  | .status => 0x08
  | .srcLen => 0x10
  | .dstCap => 0x18
  | .version => 0x20
  | .prefixReg => 0x28
  | .resultLen => 0x30
  | .resultVersion => 0x38
  | .errKind => 0x40
  | .faultCause => 0x48
  | .errMin => 0x50
  | .errLen => 0x58
  | .errIndex => 0x60
  | .errChar => 0x68
  | .errVersion => 0x70
  | .errExpected => 0x78
  | .errGot => 0x80
  | .errGotValid => 0x88

/-- The registers in the order of their offsets (R61). -/
def regsInOrder : List Reg :=
  [.cmd, .status, .srcLen, .dstCap, .version, .prefixReg, .resultLen, .resultVersion, .errKind, .faultCause,
   .errMin, .errLen, .errIndex, .errChar, .errVersion, .errExpected, .errGot, .errGotValid]

/-- The register at an offset: none at an offset that is no multiple of 8 or is 0x90 or above (R61). -/
def regAt (offset : Nat) : Option Reg := regsInOrder.find? fun r => regOffset r == offset

/-- The slot of a register: its value in the low bits, the rest 0 (R61). -/
def regSlot (r : Reg) (s : State) : Word64 :=
  match r with
  | .cmd => s.cmd.setWidth 64
  | .status => s.status.setWidth 64
  | .srcLen => s.srcLen.setWidth 64
  | .dstCap => s.dstCap.setWidth 64
  | .version => s.version.setWidth 64
  | .prefixReg => s.prefixReg.setWidth 64
  | .resultLen => s.resultLen
  | .resultVersion => s.resultVersion.setWidth 64
  | .errKind => s.err.errKind.setWidth 64
  | .faultCause => s.err.faultCause.setWidth 64
  | .errMin => s.err.errMin
  | .errLen => s.err.errLen
  | .errIndex => s.err.errIndex
  | .errChar => s.err.errChar.setWidth 64
  | .errVersion => s.err.errVersion.setWidth 64
  | .errExpected => (quadWord s.err.errExpected).setWidth 64
  | .errGot => (quadWord s.err.errGot).setWidth 64
  | .errGotValid => s.err.errGotValid.setWidth 64

/-- The slot at an offset, 0 where it holds nothing (R61). -/
def slotAt (offset : Nat) (s : State) : Word64 :=
  match regAt offset with
  | some r => regSlot r s
  | none => 0

/-- The byte of a slot at its `k`-th bus address: little-endian (R65). -/
def slotByte (slot : Word64) (k : Nat) : Byte := slot.extractLsb' (8 * k) 8

/-- The value a HOST read of an offset returns (R61, R68): while BUSY, STATUS is exact and anything else any value. -/
def regReadValue (offset : Nat) (s : State) : Word64 :=
  if s.isBusy ∧ offset ≠ regOffset .status then Config.busyRead s.draws else slotAt offset s

/-- A HOST write of a register when STATE is IDLE or DONE (R61, R69): read-only registers drop it, CMD issues a command, and a
value wider than the register keeps its low bits. -/
def storeReg (r : Reg) (value : Word64) (s : State) : State :=
  match r with
  | .cmd => issue (value.setWidth 8) s
  | .srcLen => { s with srcLen := value.setWidth 32 }
  | .dstCap => { s with dstCap := value.setWidth 32 }
  | .version => { s with version := value.setWidth 8 }
  | .prefixReg => { s with prefixReg := value.setWidth 7 }
  | .status => s
  | .resultLen => s
  | .resultVersion => s
  | .errKind => s
  | .faultCause => s
  | .errMin => s
  | .errLen => s
  | .errIndex => s
  | .errChar => s
  | .errVersion => s
  | .errExpected => s
  | .errGot => s
  | .errGotValid => s

/-- A HOST write of an offset: dropped while BUSY (R68) and where the offset holds nothing (R61). -/
def regWrite (offset : Nat) (value : Word64) (s : State) : State :=
  if s.isBusy then s
  else
    match regAt offset with
    | some r => storeReg r value s
    | none => s

/-- A HOST write of one byte of a buffer: dropped while BUSY (R66, R68). -/
def byteWrite (sp : Space) (index : Nat) (v : Byte) (s : State) : State :=
  if s.isBusy then s else writeBytes sp index [v] s

/-- The byte a HOST read of a buffer returns (R66, R68): any value while BUSY. -/
def byteReadValue (sp : Space) (index : Nat) (s : State) : Byte :=
  if s.isBusy then (Config.busyRead s.draws).setWidth 8 else readByte sp index s

/-- A HOST read delivers a value: the next draw is a fresh one (log entry 7). -/
def deliver (value : Word64) (s : State) : State := { s with reads := s.reads ++ [value], draws := s.draws + 1 }

/-- One act of the HOST: the first line of its script, or the next access of that line (R66, R92). `rest` is the script after
the line. While BUSY a write of any index is dropped and a read of any index returns any value (R68); otherwise the index must
be below the buffer's size (R60, log entry 10). -/
def hostAct (line : HostLine) (rest : List HostLine) (s : State) : Host.Outcome State Fault Refusal :=
  let popped : State := { s with script := rest }
  match line with
  | .wr offset value => .next (regWrite offset value popped)
  | .cmd i => .next (regWrite (regOffset .cmd) ((encodeByte i).setWidth 64) popped)
  | .wait => .next (if s.isDone then deliver (regSlot .status s) popped else s)
  | .rd offset => .next (deliver (regReadValue offset s) popped)
  | .wrb _ _ [] => .next popped
  | .wrb sp index (b :: bs) =>
    if s.isBusy ∨ index < s.sizeOf sp then
      .next (byteWrite sp index b { s with script := .wrb sp (index + 1) bs :: rest })
    else .fault (.noSuchByte sp index)
  | .rdb _ _ 0 => .next popped
  | .rdb sp index (count + 1) =>
    if s.isBusy ∨ index < s.sizeOf sp then
      .next (deliver ((byteReadValue sp index s).setWidth 64) { s with script := .rdb sp (index + 1) count :: rest })
    else .fault (.noSuchByte sp index)
  | .reset => .next (resetInput popped)

end Sys2Proof.Machine
end

