-- ==== Sys2Proof/Machine/Sequencer.lean ====
section
/-! DEFINITION. Which agent moves next (R5, R68, R218). -/

namespace Sys2Proof.Machine

/-- Whose move it is: the CORE runs the issued command, the HOST acts, or nothing happens. -/
inductive Turn where
  | core (s : State)
  | host (line : HostLine) (rest : List HostLine) (s : State)
  | rest
deriving DecidableEq, Repr

/-- The next draw of free values. -/
def drawn (s : State) : State := { s with draws := s.draws + 1 }

/-- The HOST lets the command complete before its next act: it waits, or its program has ended (R92, R239). -/
def hostWaits : List HostLine → Bool
  | [] => true
  | .wait :: _ => true
  | .wr _ _ :: _ => false
  | .wrb _ _ _ :: _ => false
  | .cmd _ :: _ => false
  | .rd _ :: _ => false
  | .rdb _ _ _ :: _ => false
  | .reset :: _ => false

/-- Whose move it is. While BUSY and the HOST waits, the CORE's; while BUSY and the HOST does not, the order of its next act and
the completion is open, a free value (log entry 4). In IDLE and DONE the block does nothing until the HOST acts (R218). -/
def turn (s : State) : Turn :=
  match s.script with
  | [] => if s.isBusy then .core s else .rest
  | line :: rest =>
    if s.isBusy then
      if hostWaits (line :: rest) then .core s
      else if Config.coreFirst s.draws then .core (drawn s) else .host line rest (drawn s)
    else .host line rest s

end Sys2Proof.Machine
end

