-- ==== Sys2Proof/Machine/Step.lean ====
section
/-! DEFINITION. One step of the block: the CORE runs the issued command to its completion, or the HOST acts once, or nothing
happens. -/

namespace Sys2Proof.Machine

/-- The CORE's step: the byte in CMD is decoded and its command runs; a byte that is no command is the fault IllegalCommand. -/
def coreStep (s : State) : Host.Outcome State Fault Refusal :=
  match fetch s with
  | .ok i _ => exec i s
  | .rejected _ => .next (illegalCommand s)

/-- One step. -/
def step (s : State) : Host.Outcome State Fault Refusal :=
  match turn s with
  | .core s' => coreStep s'
  | .host line rest s' => hostAct line rest s'
  | .rest => .next s

/-- The state in which a command word is issued and the HOST waits for it: the next step is the CORE's and runs it. It stands
for the HOST's write to CMD (log entry 3). -/
def State.withFetchWord (s : State) (nbits w : Nat) : State :=
  issue (tableByte nbits w) { s with script := .wait :: s.script }

end Sys2Proof.Machine
end

