-- ==== Sys2Proof/Safety.lean ====
section
/-! DEFINITION. The terms the claims use: what a completed command leaves (R67, R200, R209), the closed forms of the engines
(R130, R151), which byte of an input is reported (R210), and the invariant of the machine. -/

namespace Sys2Proof.Machine

/-! ### What a command leaves -/

/-- What no command changes: CMD, the operand registers and SRC (R21 to R25, R35), and the model's parameters and HOST side. -/
structure OperandsKept (s t : State) : Prop where
  cmd       : t.cmd = s.cmd
  srcLen    : t.srcLen = s.srcLen
  dstCap    : t.dstCap = s.dstCap
  version   : t.version = s.version
  prefixReg : t.prefixReg = s.prefixReg
  src       : t.src = s.src
  params    : t.params = s.params
  script    : t.script = s.script
  reads     : t.reads = s.reads
  epoch     : t.epoch = s.epoch

/-- DST at and above an index is unchanged. -/
def DstKeptFrom (n : Nat) (s t : State) : Prop := ∀ i, n ≤ i → readByte .dst i t = readByte .dst i s

/-- A buffer command succeeded with these result bytes and this version (R67, R83, R200): STATUS DONE with ERR = 0, the results,
no error record, DST[0..RESULT_LEN) the result, DST at and above DST_CAP unchanged. -/
structure Succeeded (s t : State) (result : List Byte) (version : BitVec 5) : Prop where
  status        : t.status = 0x02
  resultLen     : t.resultLen.toNat = result.length
  resultVersion : t.resultVersion = version.setWidth 8
  err           : t.err = ErrorRecord.zero
  phase         : t.work.phase = .idle
  kept          : OperandsKept s t
  dstResult     : ∀ i (h : i < result.length), readByte .dst i t = result[i]
  dstKept       : DstKeptFrom s.capacity s t

/-- A command failed with this error (R209, R67): the record, RESULT_LEN and RESULT_VERSION 0, STATUS DONE with ERR = 1; DST
wholly unchanged where the failure keeps it, else unchanged at and above DST_CAP. -/
structure Failed (s t : State) (e : CommandError) : Prop where
  status        : t.status = 0x06
  resultLen     : t.resultLen = 0
  resultVersion : t.resultVersion = 0
  err           : t.err = e.record
  phase         : t.work.phase = .idle
  kept          : OperandsKept s t
  dstWhole      : e.keepsDst = true → t.dst = s.dst
  dstKept       : DstKeptFrom s.capacity s t

/-! ### Closed forms of the engines -/

/-- The number a digit sequence denotes, most significant digit first (R63). -/
def bigEndian (base : Nat) (digits : List Nat) : Nat := digits.foldl (fun acc d => acc * base + d) 0

/-- The number a byte sequence denotes (R63). -/
def bytesValue (bytes : List Byte) : Nat := bigEndian 256 (bytes.map BitVec.toNat)

/-- The number a sequence of 5-bit values denotes (R63). -/
def symbolsValue (ks : List (BitVec 5)) : Nat := bigEndian 32 (ks.map BitVec.toNat)

/-- The numeral of a number, most significant digit first, no leading zero digit, empty for 0 (R130, R151). -/
def numeral (base n : Nat) : List Nat := (Nat.digits base n).reverse

/-- `ENC(IN)` in closed form (R130). -/
def encClosed (input : List Byte) : List Byte :=
  List.replicate (leadingCount 0 input) zeroChar ++
    (numeral 32 (bytesValue input)).map fun d => symbol (BitVec.ofNat 5 d)

/-- `DEC(IN)` in closed form, for an input whose symbols are all valid (R151). -/
def decClosed (input : List Byte) : List Byte :=
  List.replicate (leadingCount zeroChar input) 0 ++
    (numeral 256 (symbolsValue (input.filterMap symbolValue))).map fun d => BitVec.ofNat 8 d

/-! ### Which byte is reported -/

/-- The lowest index of a byte >= 128 (R141). -/
def firstNonAscii (input : List Byte) : Option Nat := input.findIdx? fun c => decide (128 ≤ c.toNat)

/-- The highest index of a byte below 128 that DLUT marks invalid, where no byte is >= 128 (R143). -/
def lastInvalid (input : List Byte) : Option Nat :=
  ((List.range input.length).filter fun i => (dlut ((input.getD i 0).setWidth 7)).isNone).getLast?

/-- The index InvalidCharacter reports for a decode run's input, none when every symbol is valid (R210). -/
def badIndex (input : List Byte) : Option Nat := (firstNonAscii input).or (lastInvalid input)

/-! ### The outcome of a decode path -/

/-- The range test of every buffer command (R208 cause 4). -/
abbrev OutOfRange (s : State) : Prop := s.params.srcSize < s.inputLen ∨ s.params.dstSize < s.capacity

/-- What the unprefixed decode path on SRC[off..M) leaves, its tests in the order of R210 (R149, R150). -/
def DecodeOutcome (off : Nat) (s t : State) : Prop :=
  if s.capacity < s.inputLen - off then Failed s t (.bufferTooSmall (s.inputLen - off) s.capacity)
  else
    match badIndex (srcRange off (s.inputLen - off) s) with
    | some i => Failed s t (.invalidCharacter (readByte .src (off + i) s) (off + i))
    | none => ∃ bytes, decBytes (srcRange off (s.inputLen - off) s) = some bytes ∧ Succeeded s t bytes 0

/-- What the split, recomputation and comparison of a decoded unit leave (R163, R167). -/
def VerifyOutcome (unit : List Byte) (version : BitVec 5) (s t : State) : Prop :=
  let payload := unit.take (unit.length - 4)
  let embedded := quadOfBytes (unit.drop (unit.length - 4))
  if unit.length < 4 then Failed s t (.faulted .shortFrame)
  else if compute payload (version.setWidth 8) ≠ embedded then
    Failed s t (.checksumMismatch (compute payload (version.setWidth 8)) embedded)
  else Succeeded s t payload version

/-- What the unprefixed decode-with-checksum path on SRC[off..M) leaves, its tests in the order of R210 (R163, R164). -/
def DecodeCheckOutcome (off : Nat) (s t : State) : Prop :=
  if s.capacity < s.inputLen - off then Failed s t (.bufferTooSmall (s.inputLen - off) s.capacity)
  else if s.inputLen - off < 2 then Failed s t (.insufficientData 2 (s.inputLen - off))
  else
    match symbolValue (readByte .src off s) with
    | none => Failed s t (.invalidCharacter (readByte .src off s) off)
    | some version =>
      match badIndex (srcRange (off + 1) (s.inputLen - off - 1) s) with
      | some i => Failed s t (.invalidCharacter (readByte .src (off + 1 + i) s) (off + 1 + i))
      | none =>
        ∃ unit, decBytes (srcRange (off + 1) (s.inputLen - off - 1) s) = some unit ∧ VerifyOutcome unit version s t

/-! ### The operands a command reads -/

/-- Two states agree on everything R83 lists as read by a command: its operand registers, and for a buffer command the sizes of
the buffers and SRC[0..SRC_LEN). -/
structure SameOperands (i : Instr) (s u : State) : Prop where
  srcLen    : s.srcLen = u.srcLen
  version   : i = .encodeCheck ∨ i = .encodeCheckP → s.version = u.version
  prefixReg : i.fields.prefixed = true → s.prefixReg = u.prefixReg
  dstCap    : i.fields.capacity = false → s.dstCap = u.dstCap
  params    : i.fields.capacity = false → s.params = u.params
  srcBytes  : i.fields.capacity = false → ∀ j, j < s.inputLen → readByte .src j s = readByte .src j u

/-- SRC[0..SRC_LEN) of a state is the result DST[0..RESULT_LEN) of another: the HOST copied it (R238). -/
structure HoldsResultOf (t u : State) : Prop where
  srcLen   : u.inputLen = t.resultLen.toNat
  srcBytes : ∀ j, j < u.inputLen → readByte .src j u = readByte .dst j t

/-! ### The phases of a command -/

/-- The column "leaves to" of the table of R40, without the early exits to P_FINISH. -/
def phaseLeavesTo : Phase → List Phase
  | .idle => [.args]
  | .args => [.head, .scan, .lz, .finish]
  | .head => [.hash, .scan, .lz]
  | .hash => [.lz, .verify]
  | .scan => [.lz]
  | .lz => [.pack]
  | .pack => [.flush]
  | .flush => [.strip]
  | .strip => [.pad]
  | .pad => [.rev]
  | .rev => [.finish, .hash]
  | .verify => [.finish]
  | .finish => [.idle]

/-- PHASE may advance from one value to another: as the table says, or by the early exit of an error from a working phase to
P_FINISH (R40, R209; log entry 2). -/
def PhaseStep (p q : Phase) : Prop := q ∈ phaseLeavesTo p ∨ (q = .finish ∧ p ≠ .idle ∧ p ≠ .finish)

/-- The phases of a successful command, from P_ARGS on: the first working phase of its rule and on through the table of R40. -/
def successPhases : Instr → List Phase
  | .enclen => [.args, .finish, .idle]
  | .declen => [.args, .finish, .idle]
  | .encchklen => [.args, .finish, .idle]
  | .decchklen => [.args, .finish, .idle]
  | .encode => [.args, .lz, .pack, .flush, .strip, .pad, .rev, .finish, .idle]
  | .encodeP => [.args, .head, .lz, .pack, .flush, .strip, .pad, .rev, .finish, .idle]
  | .encodeCheck => [.args, .head, .hash, .lz, .pack, .flush, .strip, .pad, .rev, .finish, .idle]
  | .encodeCheckP => [.args, .head, .hash, .lz, .pack, .flush, .strip, .pad, .rev, .finish, .idle]
  | .decode => [.args, .scan, .lz, .pack, .flush, .strip, .pad, .rev, .finish, .idle]
  | .decodeP => [.args, .scan, .lz, .pack, .flush, .strip, .pad, .rev, .finish, .idle]
  | .decodeCheck => [.args, .head, .scan, .lz, .pack, .flush, .strip, .pad, .rev, .hash, .verify, .finish, .idle]
  | .decodeCheckP => [.args, .head, .scan, .lz, .pack, .flush, .strip, .pad, .rev, .hash, .verify, .finish, .idle]

/-! ### The invariant of the machine -/

/-- A field of the error record that the raised kind does not write is 0 (R29 to R34, R201). -/
structure ErrorRecord.Consistent (e : ErrorRecord) : Prop where
  kind     : e.errKind.toNat ≤ 7
  cause    : e.faultCause.toNat ≤ 4
  faulted  : e.errKind = 7 ↔ e.faultCause ≠ 0
  lengths  : e.errKind ≠ 1 → e.errKind ≠ 5 → e.errMin = 0 ∧ e.errLen = 0
  char     : e.errKind ≠ 2 → e.errChar = 0 ∧ e.errIndex = 0
  version  : e.errKind ≠ 4 → e.errVersion = 0
  quads    : e.errKind ≠ 3 → e.errKind ≠ 6 →
    e.errExpected = ⟨0, 0, 0, 0⟩ ∧ e.errGot = ⟨0, 0, 0, 0⟩ ∧ e.errGotValid = 0

/-- What every run of the block keeps: STATUS is one of its four words and agrees with PHASE (R26, R40) and with ERR_KIND (R44);
the error record is consistent; results and record are 0 unless STATE = DONE (R213, R235), and a failed command has no result
(R27, R28); CARRY < 2^NBITS (R37); the buffers keep their canonical form and hold no byte at or past their sizes (R60). -/
structure State.Inv (s : State) : Prop where
  status     : s.status = 0x00 ∨ s.status = 0x01 ∨ s.status = 0x02 ∨ s.status = 0x06
  busy       : s.isBusy = true ↔ s.work.phase ≠ .idle
  flag       : errFlag s.status = true ↔ s.err.errKind ≠ 0
  record     : s.err.Consistent
  notDone    : s.isDone = false → s.resultLen = 0 ∧ s.resultVersion = 0 ∧ s.err = ErrorRecord.zero
  noResult   : s.err.errKind ≠ 0 → s.resultLen = 0 ∧ s.resultVersion = 0
  versionLow : s.resultVersion.toNat < 32
  carry      : s.work.carry.toNat < 2 ^ s.work.nbits.toNat
  nbits      : s.work.nbits.toNat ≤ 12
  params     : s.params.wellFormed = true
  srcForm    : s.src.wf
  dstForm    : s.dst.wf
  srcBelow   : s.src.below s.params.srcSize
  dstBelow   : s.dst.below s.params.dstSize

end Sys2Proof.Machine
end

