-- ==== Sys2Proof/Certificates/Slice0/Obligations.lean ====
section
/-! DEFINITION. The statements for the provers, each from the rules of spec/ its docstring names. -/

open Sys2Proof Sys2Proof.Machine

/-! ### Encodings -/

/-- R81: the twelve command bytes decode to their commands, and no other byte decodes to a command. -/
def Obligations.CommandBytesDecode : Prop :=
  decode [0b00010000] = .ok .encode [] ∧ decode [0b00010001] = .ok .decode [] ∧
  decode [0b00010010] = .ok .encodeCheck [] ∧ decode [0b00010011] = .ok .decodeCheck [] ∧
  decode [0b00010100] = .ok .enclen [] ∧ decode [0b00010101] = .ok .declen [] ∧
  decode [0b00010110] = .ok .encchklen [] ∧ decode [0b00010111] = .ok .decchklen [] ∧
  decode [0b00011000] = .ok .encodeP [] ∧ decode [0b00011001] = .ok .decodeP [] ∧
  decode [0b00011010] = .ok .encodeCheckP [] ∧ decode [0b00011011] = .ok .decodeCheckP [] ∧
  ∀ (b : Byte) (i : Instr), decode [b] = .ok i [] → 0x10 ≤ b.toNat ∧ b.toNat ≤ 0x1B

/-- R80, R81: decoding an encoded command gives it back, with the bytes after it. -/
def Obligations.DecodeOfEncode : Prop :=
  ∀ (i : Instr) (rest : List Byte), i.wellFormed = true → decode (encode i ++ rest) = .ok i rest

/-- R82: the illegal bytes are exactly 0x00 to 0x0F, 0x1C to 0x1F and 0x20 to 0xFF. -/
def Obligations.IllegalBytesRejected : Prop :=
  ∀ b : Byte, (∃ e, decode [b] = .rejected e) ↔
    b.toNat ≤ 0x0F ∨ (0x1C ≤ b.toNat ∧ b.toNat ≤ 0x1F) ∨ 0x20 ≤ b.toNat

/-- R84, R85: DLUT gives each ALPHABET symbol its index and `O`, `I`, `L` the indices 0, 1, 1, and marks every other code
invalid. -/
def Obligations.DlutIsAlphabetPlusThreeAliases : Prop :=
  (∀ k : BitVec 5, dlut ((symbol k).setWidth 7) = some k) ∧
  dlut 0x4F = some 0 ∧ dlut 0x49 = some 1 ∧ dlut 0x4C = some 1 ∧
  ∀ c : BitVec 7, dlut c ≠ none → (∃ k, c.setWidth 8 = symbol k) ∨ c = 0x4F ∨ c = 0x49 ∨ c = 0x4C

/-! ### The step -/

/-- R73, R68, R81: while BUSY and the HOST waits, a step runs the command in CMD, or the illegal byte in it. While the HOST does
not wait, the step is the CORE's after the draw that orders the two agents, or the HOST's act: the model's choice (log entry 4).
`withFetchWord` sets up a step of the CORE (log entry 3). -/
def Obligations.StepRunsDecodedCommand : Prop :=
  (∀ (s : State) (i : Instr) (rest : List Byte), i.wellFormed = true → s.isBusy = true → fetch s = .ok i rest →
    (hostWaits s.script = true → step s = exec i s) ∧
    (∀ line lines, s.script = line :: lines → hostWaits s.script = false →
      step s = if Config.coreFirst s.draws then exec i (drawn s) else hostAct line lines (drawn s))) ∧
  (∀ (s : State) (e : DecodeError), s.isBusy = true → fetch s = .rejected e →
    (hostWaits s.script = true → step s = .next (illegalCommand s)) ∧
    (∀ line lines, s.script = line :: lines → hostWaits s.script = false →
      step s = if Config.coreFirst s.draws then .next (illegalCommand (drawn s)) else hostAct line lines (drawn s))) ∧
  ∀ (s : State) (i : Instr),
    step (s.withFetchWord 8 (encodeByte i).toNat) = exec i (s.withFetchWord 8 (encodeByte i).toNat)

/-- R218, R5, R66, R92, R230: when STATE is not BUSY, a step changes nothing where the HOST's script (log entry 3) has ended, and
otherwise is the act of its first line. In every state a register write is `regWrite` at its offset, a register read delivers
`regReadValue`, a line `CMD` writes the mnemonic's byte to CMD, a pulse of the reset input is `resetInput`, and a buffer line with
nothing left to move ends. -/
def Obligations.IdleBlockRests : Prop :=
  (∀ s : State, s.isBusy = false → (s.script = [] → step s = .next s) ∧
    ∀ line rest, s.script = line :: rest → step s = hostAct line rest s) ∧
  ∀ (s : State) (rest : List HostLine),
    (∀ offset value, hostAct (.wr offset value) rest s = .next (regWrite offset value { s with script := rest })) ∧
    (∀ offset, hostAct (.rd offset) rest s =
      .next { s with script := rest, reads := s.reads ++ [regReadValue offset s], draws := s.draws + 1 }) ∧
    (∀ i, hostAct (.cmd i) rest s = .next (regWrite 0x00 ((encodeByte i).setWidth 64) { s with script := rest })) ∧
    hostAct .reset rest s = .next (resetInput { s with script := rest }) ∧
    ∀ sp index, hostAct (.wrb sp index []) rest s = .next { s with script := rest } ∧
      hostAct (.rdb sp index 0) rest s = .next { s with script := rest }

/-- R21, R92, in the model's script (log entry 3): when STATE is not BUSY, a line `CMD <mnemonic>` stores the command's byte and makes the block BUSY, and the next
step, if the HOST waits, runs the command. -/
def Obligations.CommandLineRunsCommand : Prop :=
  ∀ (s : State) (i : Instr) (rest : List HostLine),
    s.isBusy = false → s.script = .cmd i :: rest → hostWaits rest = true →
    ∃ u, step s = .next u ∧ u.cmd = encodeByte i ∧ u.isBusy = true ∧ u.src = s.src ∧ u.dst = s.dst ∧
      u.srcLen = s.srcLen ∧ u.dstCap = s.dstCap ∧ u.version = s.version ∧ u.prefixReg = s.prefixReg ∧
      step u = exec i u

/-- R82: when STATE is not BUSY, writing one of the illegal bytes to CMD starts a command that completes at once with
IllegalCommand, and nothing else changes. -/
def Obligations.IllegalCommandCompletesAtOnce : Prop :=
  ∀ (s : State) (b : Byte), s.isBusy = false →
    b.toNat ≤ 0x0F ∨ (0x1C ≤ b.toNat ∧ b.toNat ≤ 0x1F) ∨ 0x20 ≤ b.toNat →
    ∃ t, coreStep (regWrite 0x00 (b.setWidth 64) s) = .next t ∧ t.cmd = b ∧ t.status = 0x06 ∧
      t.err = { ErrorRecord.zero with errKind := 7, faultCause := 1 } ∧ t.resultLen = 0 ∧ t.resultVersion = 0 ∧
      t.work.phase = .idle ∧ t.src = s.src ∧ t.dst = s.dst ∧ t.srcLen = s.srcLen ∧ t.dstCap = s.dstCap ∧
      t.version = s.version ∧ t.prefixReg = s.prefixReg ∧ t.params = s.params ∧ t.epoch = s.epoch

/-! ### Capacity commands -/

/-- R114, R40, R43, R213: ENCLEN. That the history of PHASE is P_ARGS, P_FINISH, P_IDLE is the model's own field (log entry 2), and
that the SHA-256 unit's registers stay as they were is the model's choice (log entry 8). -/
def Obligations.EnclenResult : Prop :=
  ∀ s : State, exec .enclen s = .next { s with
      resultLen := BitVec.ofNat 64 ((s.srcLen.toNat * 8 + 4) / 5), resultVersion := 0, err := ErrorRecord.zero,
      status := 0x02, work := { s.work.atIssue with phase := .idle },
      phases := [.args, .finish, .idle] } ∧
    (BitVec.ofNat 64 ((s.srcLen.toNat * 8 + 4) / 5)).toNat = (s.srcLen.toNat * 8 + 4) / 5

/-- R115, R40, R43, R213: DECLEN. That the history of PHASE is P_ARGS, P_FINISH, P_IDLE is the model's own field (log entry 2), and
that the SHA-256 unit's registers stay as they were is the model's choice (log entry 8). -/
def Obligations.DeclenResult : Prop :=
  ∀ s : State, exec .declen s = .next { s with
      resultLen := s.srcLen.setWidth 64, resultVersion := 0, err := ErrorRecord.zero,
      status := 0x02, work := { s.work.atIssue with phase := .idle },
      phases := [.args, .finish, .idle] }

/-- R116, R40, R43, R213: ENCCHKLEN. That the history of PHASE is P_ARGS, P_FINISH, P_IDLE is the model's own field (log entry 2), and
that the SHA-256 unit's registers stay as they were is the model's choice (log entry 8). -/
def Obligations.EncchklenResult : Prop :=
  ∀ s : State, exec .encchklen s = .next { s with
      resultLen := BitVec.ofNat 64 (1 + ((s.srcLen.toNat + 4) * 8 + 4) / 5), resultVersion := 0,
      err := ErrorRecord.zero, status := 0x02, work := { s.work.atIssue with phase := .idle },
      phases := [.args, .finish, .idle] } ∧
    (BitVec.ofNat 64 (1 + ((s.srcLen.toNat + 4) * 8 + 4) / 5)).toNat = 1 + ((s.srcLen.toNat + 4) * 8 + 4) / 5

/-- R117, R40, R43, R213: DECCHKLEN. That the history of PHASE is P_ARGS, P_FINISH, P_IDLE is the model's own field (log entry 2), and
that the SHA-256 unit's registers stay as they were is the model's choice (log entry 8). -/
def Obligations.DecchklenResult : Prop :=
  ∀ s : State, exec .decchklen s = .next { s with
      resultLen := s.srcLen.setWidth 64, resultVersion := 0, err := ErrorRecord.zero,
      status := 0x02, work := { s.work.atIssue with phase := .idle },
      phases := [.args, .finish, .idle] }

/-- R109 (a), (d): the bounds and the monotonicity of `encoded_length`. -/
def Obligations.EncodedLengthLaws : Prop :=
  (∀ n, n ≤ encodedLength n ∧ encodedLength n ≤ 2 * n ∧ (encodedLength n = n → n = 0)) ∧
  ∀ m n, m ≤ n → encodedLength m ≤ encodedLength n

/-! ### Buffer commands: the whole outcome of each -/

/-- R128: ENCODE. -/
def Obligations.EncodeOutcomeOnEveryState : Prop :=
  ∀ s : State, ∃ t, exec .encode s = .next t ∧
    (OutOfRange s → Failed s t (.faulted .lengthOutOfRange)) ∧
    (¬OutOfRange s → s.capacity < (s.inputLen * 8 + 4) / 5 →
      Failed s t (.bufferTooSmall ((s.inputLen * 8 + 4) / 5) s.capacity)) ∧
    (¬OutOfRange s → (s.inputLen * 8 + 4) / 5 ≤ s.capacity →
      Succeeded s t (encBytes (srcRange 0 s.inputLen s)) 0)

/-- R129: ENCODE_P. -/
def Obligations.EncodePrefixedOutcomeOnEveryState : Prop :=
  ∀ s : State, ∃ t, exec .encodeP s = .next t ∧
    (OutOfRange s → Failed s t (.faulted .lengthOutOfRange)) ∧
    (¬OutOfRange s → s.capacity < 1 + (s.inputLen * 8 + 4) / 5 →
      Failed s t (.bufferTooSmall (1 + (s.inputLen * 8 + 4) / 5) s.capacity)) ∧
    (¬OutOfRange s → 1 + (s.inputLen * 8 + 4) / 5 ≤ s.capacity →
      Succeeded s t (s.prefixReg.setWidth 8 :: encBytes (srcRange 0 s.inputLen s)) 0)

/-- R149: DECODE. -/
def Obligations.DecodeOutcomeOnEveryState : Prop :=
  ∀ s : State, ∃ t, exec .decode s = .next t ∧
    (OutOfRange s → Failed s t (.faulted .lengthOutOfRange)) ∧ (¬OutOfRange s → DecodeOutcome 0 s t)

/-- R150: DECODE_P. -/
def Obligations.DecodePrefixedOutcomeOnEveryState : Prop :=
  ∀ s : State, ∃ t, exec .decodeP s = .next t ∧
    (OutOfRange s → Failed s t (.faulted .lengthOutOfRange)) ∧
    (¬OutOfRange s → s.inputLen = 0 → Failed s t (.missingPrefix (s.prefixReg.setWidth 8) none)) ∧
    (¬OutOfRange s → s.inputLen ≠ 0 → readByte .src 0 s ≠ s.prefixReg.setWidth 8 →
      Failed s t (.missingPrefix (s.prefixReg.setWidth 8) (some (readByte .src 0 s)))) ∧
    (¬OutOfRange s → s.inputLen ≠ 0 → readByte .src 0 s = s.prefixReg.setWidth 8 → DecodeOutcome 1 s t)

/-- R161: ENCODE_CHECK. -/
def Obligations.EncodeCheckOutcomeOnEveryState : Prop :=
  ∀ s : State, ∃ t, exec .encodeCheck s = .next t ∧
    (OutOfRange s → Failed s t (.faulted .lengthOutOfRange)) ∧
    (¬OutOfRange s → s.capacity < encodedCheckLength s.inputLen →
      Failed s t (.bufferTooSmall (encodedCheckLength s.inputLen) s.capacity)) ∧
    (¬OutOfRange s → encodedCheckLength s.inputLen ≤ s.capacity → 32 ≤ s.version.toNat →
      Failed s t (.invalidVersion s.version)) ∧
    (¬OutOfRange s → encodedCheckLength s.inputLen ≤ s.capacity → s.version.toNat < 32 →
      Succeeded s t (symbol (s.version.setWidth 5) ::
        encBytes (srcRange 0 s.inputLen s ++ quadBytes (compute (srcRange 0 s.inputLen s) s.version))) 0)

/-- R162: ENCODE_CHECK_P. -/
def Obligations.EncodeCheckPrefixedOutcomeOnEveryState : Prop :=
  ∀ s : State, ∃ t, exec .encodeCheckP s = .next t ∧
    (OutOfRange s → Failed s t (.faulted .lengthOutOfRange)) ∧
    (¬OutOfRange s → s.capacity < 1 + encodedCheckLength s.inputLen →
      Failed s t (.bufferTooSmall (1 + encodedCheckLength s.inputLen) s.capacity)) ∧
    (¬OutOfRange s → 1 + encodedCheckLength s.inputLen ≤ s.capacity → 32 ≤ s.version.toNat →
      Failed s t (.invalidVersion s.version)) ∧
    (¬OutOfRange s → 1 + encodedCheckLength s.inputLen ≤ s.capacity → s.version.toNat < 32 →
      Succeeded s t (s.prefixReg.setWidth 8 :: symbol (s.version.setWidth 5) ::
        encBytes (srcRange 0 s.inputLen s ++ quadBytes (compute (srcRange 0 s.inputLen s) s.version))) 0)

/-- R163: DECODE_CHECK. -/
def Obligations.DecodeCheckOutcomeOnEveryState : Prop :=
  ∀ s : State, ∃ t, exec .decodeCheck s = .next t ∧
    (OutOfRange s → Failed s t (.faulted .lengthOutOfRange)) ∧ (¬OutOfRange s → DecodeCheckOutcome 0 s t)

/-- R164: DECODE_CHECK_P. -/
def Obligations.DecodeCheckPrefixedOutcomeOnEveryState : Prop :=
  ∀ s : State, ∃ t, exec .decodeCheckP s = .next t ∧
    (OutOfRange s → Failed s t (.faulted .lengthOutOfRange)) ∧
    (¬OutOfRange s → s.inputLen = 0 → Failed s t (.missingPrefix (s.prefixReg.setWidth 8) none)) ∧
    (¬OutOfRange s → s.inputLen ≠ 0 → readByte .src 0 s ≠ s.prefixReg.setWidth 8 →
      Failed s t (.missingPrefix (s.prefixReg.setWidth 8) (some (readByte .src 0 s)))) ∧
    (¬OutOfRange s → s.inputLen ≠ 0 → readByte .src 0 s = s.prefixReg.setWidth 8 → DecodeCheckOutcome 1 s t)

/-! ### Completion in terms of the input's symbols -/

/-- R149, R151: DECODE of a string of valid symbols, within the sizes and the capacity, succeeds with the closed form. -/
def Obligations.DecodeOfValidSymbolsCompletes : Prop :=
  ∀ s : State, s.inputLen ≤ s.params.srcSize → s.capacity ≤ s.params.dstSize → s.inputLen ≤ s.capacity →
    (∀ c ∈ srcRange 0 s.inputLen s, c.toNat < 128 ∧ dlut (c.setWidth 7) ≠ none) →
    ∃ t, exec .decode s = .next t ∧ Succeeded s t (decClosed (srcRange 0 s.inputLen s)) 0

/-- R150, R151: DECODE_P, with the prefix in front, of a string of valid symbols succeeds with the closed form of the rest. -/
def Obligations.DecodePrefixedOfValidSymbolsCompletes : Prop :=
  ∀ s : State, s.inputLen ≤ s.params.srcSize → s.capacity ≤ s.params.dstSize → s.inputLen ≤ s.capacity + 1 →
    s.inputLen ≠ 0 → readByte .src 0 s = s.prefixReg.setWidth 8 →
    (∀ c ∈ srcRange 1 (s.inputLen - 1) s, c.toNat < 128 ∧ dlut (c.setWidth 7) ≠ none) →
    ∃ t, exec .decodeP s = .next t ∧ Succeeded s t (decClosed (srcRange 1 (s.inputLen - 1) s)) 0

/-- R163, R161: DECODE_CHECK of a frame (a version symbol and the packing of a payload with its checksum), within the sizes and
the capacity, succeeds with the payload and the version. -/
def Obligations.DecodeCheckOfFrameCompletes : Prop :=
  ∀ (s : State) (payload : List Byte) (version : BitVec 5),
    s.inputLen ≤ s.params.srcSize → s.capacity ≤ s.params.dstSize → s.inputLen ≤ s.capacity →
    srcRange 0 s.inputLen s =
      symbol version :: encBytes (payload ++ quadBytes (compute payload (version.setWidth 8))) →
    ∃ t, exec .decodeCheck s = .next t ∧ Succeeded s t payload version

/-- R164, R162: DECODE_CHECK_P of a prefixed frame succeeds with the payload and the version. -/
def Obligations.DecodeCheckPrefixedOfFrameCompletes : Prop :=
  ∀ (s : State) (payload : List Byte) (version : BitVec 5),
    s.inputLen ≤ s.params.srcSize → s.capacity ≤ s.params.dstSize → s.inputLen ≤ s.capacity + 1 →
    srcRange 0 s.inputLen s =
      s.prefixReg.setWidth 8 :: symbol version ::
        encBytes (payload ++ quadBytes (compute payload (version.setWidth 8))) →
    ∃ t, exec .decodeCheckP s = .next t ∧ Succeeded s t payload version

/-! ### The engines -/

/-- R121, R142: the count of leading zeros is the length of the longest prefix of zeros. -/
def Obligations.LeadingCountIsLongestPrefix : Prop :=
  ∀ (z : Byte) (input : List Byte), leadingCount z input ≤ input.length ∧
    (∀ i (h : i < input.length), i < leadingCount z input → input[i] = z) ∧
    ∀ h : leadingCount z input < input.length, input[leadingCount z input] ≠ z

/-- R122, R37: after the carry chain of the encode engine WP = (8N)/5, NBITS = (8N) mod 5 and CARRY < 2^NBITS. -/
def Obligations.PackChainCounts : Prop :=
  ∀ input : List Byte, (packAll input).emitted.length = 8 * input.length / 5 ∧
    (packAll input).nbits = 8 * input.length % 5 ∧ (packAll input).carry.toNat < 2 ^ (packAll input).nbits

/-- R143, R37: after the chain of the decode engine WP = (5N)/8, NBITS = (5N) mod 8 and CARRY < 2^NBITS. -/
def Obligations.UnpackChainCounts : Prop :=
  ∀ (lz i : Nat) (input : List Byte) (c : Chain), unpackAll lz i input = .ok c →
    c.emitted.length = 5 * input.length / 8 ∧ c.nbits = 5 * input.length % 8 ∧ c.carry.toNat < 2 ^ c.nbits

/-- R127, R148: WP never exceeds `encoded_length(N)` in an encode run, nor N in a decode run, completed or ended by an invalid
symbol. -/
def Obligations.EngineRunsWithinCapacity : Prop :=
  (∀ input : List Byte, (encodeRun input).peak ≤ encodedLength input.length) ∧
  (∀ (input : List Byte) (r : EngineRun), decodeRun input = .ok r → r.peak ≤ decodedLength input.length) ∧
  ∀ (input : List Byte) (b : BadSymbol), decodeRun input = .bad b →
    b.chain.emitted.length ≤ decodedLength input.length

/-- R130: the closed form of the encode engine. -/
def Obligations.EncodeEngineClosedForm : Prop :=
  ∀ input : List Byte, encBytes input = encClosed input

/-- R151: the closed form of the decode engine, and that it gives a value exactly on valid symbols. -/
def Obligations.DecodeEngineClosedForm : Prop :=
  ∀ input : List Byte,
    ((∀ c ∈ input, c.toNat < 128 ∧ dlut (c.setWidth 7) ≠ none) → decBytes input = some (decClosed input)) ∧
    (decBytes input ≠ none → ∀ c ∈ input, c.toNat < 128 ∧ dlut (c.setWidth 7) ≠ none)

/-- R151 (a): the round trip of every byte sequence. -/
def Obligations.DecodingAnEncodingGivesTheBytes : Prop :=
  ∀ bytes : List Byte, decBytes (encBytes bytes) = some bytes

/-- R151 (b): the round trip of every string of ALPHABET characters. -/
def Obligations.EncodingADecodingGivesTheSymbols : Prop :=
  ∀ ks : List (BitVec 5), ∃ bytes, decBytes (ks.map symbol) = some bytes ∧ encBytes bytes = ks.map symbol

/-- R181: the padding is the message, 0x80, fewer than 64 zero bytes up to 56 modulo 64, and the bit length in 8 bytes. -/
def Obligations.ShaPaddingFillsBlocks : Prop :=
  ∀ m : List Byte, ∃ z, z < 64 ∧ (m.length + 1 + z) % 64 = 56 ∧
    shaPad m = m ++ [0x80] ++ List.replicate z 0 ++ bigEndianBytes 8 (8 * m.length) ∧ (shaPad m).length % 64 = 0

/-- R180, R187: the digest of every message has 32 bytes, and `compute` is its first four of the outer hash. -/
def Obligations.ChecksumIsFirstDigestBytes : Prop :=
  ∀ (payload : List Byte) (version : BitVec 8), (sha256 payload).length = 32 ∧
    quadBytes (compute payload version) = (sha256 (sha256 (version :: payload))).take 4

/-! ### Round trips of the commands -/

/-- R151 (a) on the machine: DECODE of what ENCODE left in DST, copied to SRC, gives the input of the ENCODE. -/
def Obligations.DecodeCommandRestoresEncodedInput : Prop :=
  ∀ s t u : State, exec .encode s = .next t → t.status = 0x02 → HoldsResultOf t u →
    u.inputLen ≤ u.params.srcSize → u.capacity ≤ u.params.dstSize → u.inputLen ≤ u.capacity →
    ∃ v, exec .decode u = .next v ∧ Succeeded u v (srcRange 0 s.inputLen s) 0

/-- R168 (a): DECODE_CHECK of what ENCODE_CHECK left in DST, copied to SRC, gives its payload and version. -/
def Obligations.DecodeCheckRestoresPayloadAndVersion : Prop :=
  ∀ s t u : State, exec .encodeCheck s = .next t → t.status = 0x02 → HoldsResultOf t u →
    u.inputLen ≤ u.params.srcSize → u.capacity ≤ u.params.dstSize → u.inputLen ≤ u.capacity →
    ∃ v, exec .decodeCheck u = .next v ∧ Succeeded u v (srcRange 0 s.inputLen s) (s.version.setWidth 5)

/-! ### Errors and faults -/

/-- R201 to R208: the code of each kind, the fields it writes, and that every other field is 0. -/
def Obligations.ErrorRecordFields : Prop :=
  ∀ (min len index : Nat) (char expected got : Byte) (version : BitVec 8) (q r : Quad),
    (CommandError.bufferTooSmall min len).record =
      { ErrorRecord.zero with errKind := 1, errMin := BitVec.ofNat 64 min, errLen := BitVec.ofNat 64 len } ∧
    (CommandError.invalidCharacter char index).record =
      { ErrorRecord.zero with errKind := 2, errChar := char, errIndex := BitVec.ofNat 64 index } ∧
    (CommandError.missingPrefix expected none).record =
      { ErrorRecord.zero with errKind := 3, errExpected := ⟨expected, 0, 0, 0⟩ } ∧
    (CommandError.missingPrefix expected (some got)).record =
      { ErrorRecord.zero with
        errKind := 3, errExpected := ⟨expected, 0, 0, 0⟩, errGot := ⟨got, 0, 0, 0⟩, errGotValid := 1 } ∧
    (CommandError.invalidVersion version).record = { ErrorRecord.zero with errKind := 4, errVersion := version } ∧
    (CommandError.insufficientData min len).record =
      { ErrorRecord.zero with errKind := 5, errMin := BitVec.ofNat 64 min, errLen := BitVec.ofNat 64 len } ∧
    (CommandError.checksumMismatch q r).record =
      { ErrorRecord.zero with errKind := 6, errExpected := q, errGot := r, errGotValid := 1 } ∧
    (CommandError.faulted .illegalCommand).record = { ErrorRecord.zero with errKind := 7, faultCause := 1 } ∧
    (CommandError.faulted .shortFrame).record = { ErrorRecord.zero with errKind := 7, faultCause := 2 } ∧
    (CommandError.faulted .internalInvariant).record = { ErrorRecord.zero with errKind := 7, faultCause := 3 } ∧
    (CommandError.faulted .lengthOutOfRange).record = { ErrorRecord.zero with errKind := 7, faultCause := 4 }

/-- R209, R67: what an error completion writes and what it keeps, from every state. -/
def Obligations.ErrorCompletionEffect : Prop :=
  ∀ (e : CommandError) (s : State), Failed s (raise e s) e ∧ (raise e s).work = { s.work with phase := .idle }

/-- R208 cause 3, R127, R148: no command ever ends in the fault InternalInvariant. -/
def Obligations.InternalInvariantIsNeverRaised : Prop :=
  ∀ (i : Instr) (s t : State), exec i s = .next t → t.err.faultCause ≠ 3

/-- R201 (the column "raised by"), R166: which commands report which kind; the decode commands never report InvalidVersion. -/
def Obligations.ErrorKindsByCommand : Prop :=
  ∀ (i : Instr) (s t : State), exec i s = .next t →
    (i.fields.capacity = true → t.err.errKind = 0) ∧
    (t.err.errKind = 2 → i.fields.decodeSide = true) ∧
    (t.err.errKind = 3 → i = .decodeP ∨ i = .decodeCheckP) ∧
    (t.err.errKind = 4 → i = .encodeCheck ∨ i = .encodeCheckP) ∧
    (t.err.errKind = 5 ∨ t.err.errKind = 6 ∨ t.err.faultCause = 2 → i = .decodeCheck ∨ i = .decodeCheckP) ∧
    t.err.faultCause ≠ 1

/-! ### Frames and whole-machine rules -/

/-- R200, R212, R237: every command answers a next state, in which STATE = DONE, `done` is high, and ERR is 1 exactly when
ERR_KIND is not 0. -/
def Obligations.EveryCommandCompletes : Prop :=
  ∀ (i : Instr) (s : State), ∃ t, exec i s = .next t ∧ t.doneLine = true ∧ t.work.phase = .idle ∧
    (errFlag t.status = true ↔ t.err.errKind ≠ 0)

/-- R67, R209, R21 to R25: no command changes CMD, an operand register, SRC, or DST at or above DST_CAP. -/
def Obligations.CommandFrame : Prop :=
  ∀ (i : Instr) (s t : State), exec i s = .next t → OperandsKept s t ∧ DstKeptFrom s.capacity s t

/-- R67: a command that ends in BufferTooSmall, IllegalCommand or LengthOutOfRange leaves all of DST unchanged, as does every
capacity command. -/
def Obligations.DstWhollyKept : Prop :=
  ∀ (i : Instr) (s t : State), exec i s = .next t →
    i.fields.capacity = true ∨ t.err.errKind = 1 ∨ t.err.faultCause = 1 ∨ t.err.faultCause = 4 → t.dst = s.dst

/-- R6, R43, R83: the outcome of a command depends on the operands R83 lists for it and on nothing else. -/
def Obligations.OutcomeDependsOnListedOperandsOnly : Prop :=
  ∀ (i : Instr) (s u t v : State), SameOperands i s u → exec i s = .next t → exec i u = .next v →
    t.status = v.status ∧ t.resultLen = v.resultLen ∧ t.resultVersion = v.resultVersion ∧ t.err = v.err ∧
    (i.fields.capacity = false → ∀ j, j < t.resultLen.toNat → readByte .dst j t = readByte .dst j v)

/-- R26, R29 to R37, R40, R44, R60, R213: every step keeps the machine's invariant. -/
def Obligations.StepKeepsInv : Prop :=
  ∀ s t : State, s.Inv → step s = .next t → t.Inv

/-- R47: the machine's invariant holds after reset. -/
def Obligations.ResetMeetsInv : Prop := State.reset.Inv

/-- R21 to R25, R35: a step that is not the HOST's leaves SRC, CMD and the operand registers unchanged, and no step changes the parameters. -/
def Obligations.OnlyTheHostChangesSrc : Prop :=
  ∀ s t : State, step s = .next t → t.params = s.params ∧
    ((∀ line rest u, turn s ≠ .host line rest u) → t.src = s.src ∧ t.srcLen = s.srcLen ∧ t.dstCap = s.dstCap ∧
      t.version = s.version ∧ t.prefixReg = s.prefixReg ∧ t.cmd = s.cmd)

/-! ### Reset -/

/-- R230, R47: the registers after reset and after a pulse of the reset input; after one while not BUSY, every byte of SRC and
DST is unspecified anew (a free value of the model, log entries 6 and 12). -/
def Obligations.ResetValues : Prop :=
  (∀ (u : State) (sp : Space) (i : Nat), u.isBusy = false →
    readByte sp i (resetInput u) = Config.unwritten sp (u.epoch + 1) i) ∧
  ∀ s : State, (s = State.reset ∨ ∃ u, s = resetInput u) →
    s.cmd = 0 ∧ s.status = 0 ∧ s.srcLen = 0 ∧ s.dstCap = 0 ∧ s.version = 0 ∧ s.prefixReg = 0 ∧ s.resultLen = 0 ∧
    s.resultVersion = 0 ∧ s.err = ErrorRecord.zero ∧ s.work.carry = 0 ∧ s.work.nbits = 0 ∧ s.work.rp = 0 ∧
    s.work.wp = 0 ∧ s.work.lz = 0 ∧ s.work.n = 0 ∧ s.work.base = 0 ∧ s.work.off = 0 ∧ s.work.ver = 0 ∧
    s.work.chk = ⟨0, 0, 0, 0⟩ ∧ s.work.phase = .idle ∧ s.doneLine = false

/-- R231: reset while BUSY gives every register its reset value (but those of the SHA-256 unit, which R47 leaves unspecified),
leaves SRC and DST at and above DST_CAP unchanged, and gives the bytes of DST below DST_CAP any value: here the model's free value
of the draw (log entry 5), for the bytes that exist (log entry 16). No other act of the HOST stops the command. -/
def Obligations.ResetWhileBusyAbandonsTheCommand : Prop :=
  ∀ s : State, s.isBusy = true →
    (∃ d sha draws, resetInput s = { State.reset with
      work := { State.reset.work with sha := sha }, src := s.src, dst := d, params := s.params, script := s.script,
      reads := s.reads, draws := draws, epoch := s.epoch }) ∧
    DstKeptFrom s.capacity s (resetInput s) ∧
    (∀ i, i < s.capacity → i < s.params.dstSize → readByte .dst i (resetInput s) = Config.leftover s.draws i) ∧
    ∀ (u : State) (line : HostLine) (rest : List HostLine), line ≠ .reset → hostAct line rest s = .next u →
      u.isBusy = true ∧ u.cmd = s.cmd

/-! ### HOST accesses -/

/-- R61: the offsets that hold a register are the multiples of 8 below 0x90; every other offset drops writes, and reads 0 when
STATE is not BUSY (while BUSY R68 makes that read any value). -/
def Obligations.RegisterMapHoles : Prop :=
  ∀ (offset : Nat) (value : Word64) (s : State),
    (regAt offset = none ↔ offset % 8 ≠ 0 ∨ 0x90 ≤ offset) ∧
    (offset % 8 ≠ 0 ∨ 0x90 ≤ offset →
      regWrite offset value s = s ∧ slotAt offset s = 0 ∧ (s.isBusy = false → regReadValue offset s = 0))

/-- R61: the value a HOST read of each register returns when STATE is not BUSY. -/
def Obligations.RegisterReads : Prop :=
  ∀ s : State, s.isBusy = false →
    regReadValue 0x00 s = s.cmd.setWidth 64 ∧ regReadValue 0x08 s = s.status.setWidth 64 ∧
    regReadValue 0x10 s = s.srcLen.setWidth 64 ∧ regReadValue 0x18 s = s.dstCap.setWidth 64 ∧
    regReadValue 0x20 s = s.version.setWidth 64 ∧ regReadValue 0x28 s = s.prefixReg.setWidth 64 ∧
    regReadValue 0x30 s = s.resultLen ∧ regReadValue 0x38 s = s.resultVersion.setWidth 64 ∧
    regReadValue 0x40 s = s.err.errKind.setWidth 64 ∧ regReadValue 0x48 s = s.err.faultCause.setWidth 64 ∧
    regReadValue 0x50 s = s.err.errMin ∧ regReadValue 0x58 s = s.err.errLen ∧ regReadValue 0x60 s = s.err.errIndex ∧
    regReadValue 0x68 s = s.err.errChar.setWidth 64 ∧ regReadValue 0x70 s = s.err.errVersion.setWidth 64 ∧
    (List.range 8).map (slotByte (regReadValue 0x78 s)) = quadBytes s.err.errExpected ++ [0, 0, 0, 0] ∧
    (List.range 8).map (slotByte (regReadValue 0x80 s)) = quadBytes s.err.errGot ++ [0, 0, 0, 0] ∧
    regReadValue 0x88 s = s.err.errGotValid.setWidth 64

/-- R21 to R25, R61: when STATE is not BUSY, a HOST write of an operand register stores its low bits and changes nothing else, a
write of CMD issues, and a write of any other register is dropped. -/
def Obligations.RegisterWrites : Prop :=
  ∀ (s : State) (value : Word64), s.isBusy = false →
    regWrite 0x10 value s = { s with srcLen := value.setWidth 32 } ∧
    regWrite 0x18 value s = { s with dstCap := value.setWidth 32 } ∧
    regWrite 0x20 value s = { s with version := value.setWidth 8 } ∧
    regWrite 0x28 value s = { s with prefixReg := value.setWidth 7 } ∧
    regWrite 0x00 value s = issue (value.setWidth 8) s ∧
    ∀ offset, offset = 0x08 ∨ 0x30 ≤ offset → regWrite offset value s = s

/-- R21, R213, R40: an issue stores the byte, makes the block BUSY in P_ARGS, and sets every result and error register and the
working registers to 0; the operand registers and the buffers stay. -/
def Obligations.IssueClearsResultsAndRecord : Prop :=
  ∀ (b : Byte) (s : State), (issue b s).cmd = b ∧ (issue b s).status = 0x01 ∧ (issue b s).resultLen = 0 ∧
    (issue b s).resultVersion = 0 ∧ (issue b s).err = ErrorRecord.zero ∧ (issue b s).work.phase = .args ∧ (issue b s).phases = [.args] ∧
    (issue b s).work.carry = 0 ∧ (issue b s).work.nbits = 0 ∧ (issue b s).work.rp = 0 ∧ (issue b s).work.wp = 0 ∧
    (issue b s).work.lz = 0 ∧ (issue b s).work.n = 0 ∧ (issue b s).work.base = 0 ∧ (issue b s).work.off = 0 ∧
    (issue b s).work.ver = 0 ∧ (issue b s).work.chk = ⟨0, 0, 0, 0⟩ ∧ (issue b s).srcLen = s.srcLen ∧
    (issue b s).dstCap = s.dstCap ∧ (issue b s).version = s.version ∧ (issue b s).prefixReg = s.prefixReg ∧
    (issue b s).src = s.src ∧ (issue b s).dst = s.dst ∧ (issue b s).doneLine = false

/-- R68: while BUSY every HOST act, whatever its offset or index, is answered by a next state, and every one but a reset leaves the
registers, the buffers and the command in CMD as they were; a read of STATUS is exact and any other read returns any value: here
the model's free value of the draw, for a buffer byte its low eight bits (log entry 7). -/
def Obligations.BusyHostAccessesChangeNothing : Prop :=
  ∀ s : State, s.isBusy = true →
    (∀ (line : HostLine) (rest : List HostLine), ∃ u, hostAct line rest s = .next u ∧
      (line ≠ .reset → u = { s with script := u.script, reads := u.reads, draws := u.draws })) ∧
    regReadValue 0x08 s = s.status.setWidth 64 ∧
    (∀ offset, offset ≠ 0x08 → regReadValue offset s = Config.busyRead s.draws) ∧
    ∀ sp i, byteReadValue sp i s = (Config.busyRead s.draws).setWidth 8

/-- R69: a HOST read has no effect but to deliver its value. -/
def Obligations.HostReadsHaveNoSideEffect : Prop :=
  ∀ (s : State) (rest : List HostLine), s.isBusy = false →
    (∀ offset, hostAct (.rd offset) rest s =
      .next { s with script := rest, reads := s.reads ++ [slotAt offset s], draws := s.draws + 1 }) ∧
    ∀ sp index count, index < s.sizeOf sp →
      hostAct (.rdb sp index (count + 1)) rest s =
        .next { s with
          script := .rdb sp (index + 1) count :: rest, reads := s.reads ++ [(readByte sp index s).setWidth 64],
          draws := s.draws + 1 }

/-- R66, R70: when STATE is not BUSY, a HOST write of a byte that exists is answered by a next state, in which that index holds the
byte, every other byte of both buffers is as before, and nothing of the block but the buffers has changed. -/
def Obligations.HostByteWrite : Prop :=
  ∀ (s : State) (sp : Space) (index : Nat) (b : Byte) (bytes : List Byte) (rest : List HostLine),
    s.isBusy = false → index < s.sizeOf sp →
    ∃ u, hostAct (.wrb sp index (b :: bytes)) rest s = .next u ∧ readByte sp index u = b ∧
      (∀ sp' i, (sp', i) ≠ (sp, index) → readByte sp' i u = readByte sp' i s) ∧
      u = { s with src := u.src, dst := u.dst, script := .wrb sp (index + 1) bytes :: rest }

/-- R92, in the model's script (log entries 3 and 15): WAIT ends when STATE = DONE, having read STATUS, and until then changes
nothing. -/
def Obligations.WaitLine : Prop :=
  ∀ (s : State) (rest : List HostLine), s.isBusy = false → s.script = .wait :: rest →
    (s.isDone = true →
      step s = .next { s with script := rest, reads := s.reads ++ [s.status.setWidth 64], draws := s.draws + 1 }) ∧
    (s.isDone = false → step s = .next s)

/-- R60, and the model's choice of log entry 10: when STATE is not BUSY, a HOST access to a byte at or past a buffer's size stops
by name. -/
def Obligations.HostAccessPastABufferFaults : Prop :=
  ∀ (s : State) (sp : Space) (index count : Nat) (b : Byte) (bytes : List Byte) (rest : List HostLine),
    s.isBusy = false → s.sizeOf sp ≤ index →
    hostAct (.wrb sp index (b :: bytes)) rest s = .fault (.noSuchByte sp index) ∧
    hostAct (.rdb sp index (count + 1)) rest s = .fault (.noSuchByte sp index)

/-- R40, R209: the values PHASE takes while a command runs (the model's history of them, log entry 2) advance as the table says, from
P_ARGS to P_IDLE. A success passes the phases of its command, and a failure a beginning of them and then P_FINISH and P_IDLE: after
P_ARGS for an up-front check, after P_REV for ShortFrame, after P_VERIFY for ChecksumMismatch, and for InvalidCharacter
after P_HEAD (the version symbol), P_SCAN (a byte >= 128) or P_PACK (another invalid byte). -/
def Obligations.PhasesFollowTheTable : Prop :=
  ∀ (i : Instr) (s t : State), exec i s = .next t →
    t.phases.IsChain PhaseStep ∧ t.phases.head? = some .args ∧ t.phases.getLast? = some t.work.phase ∧
    t.work.phase = .idle ∧
    (t.err.errKind = 0 → t.phases = successPhases i) ∧
    (t.err.errKind = 1 ∨ t.err.errKind = 3 ∨ t.err.errKind = 4 ∨ t.err.errKind = 5 ∨ t.err.faultCause = 4 →
      t.phases = [.args, .finish, .idle]) ∧
    (t.err.errKind = 6 → t.phases = successPhases i) ∧
    (t.err.faultCause = 2 →
      t.phases = [.args, .head, .scan, .lz, .pack, .flush, .strip, .pad, .rev, .finish, .idle]) ∧
    (t.err.errKind = 2 → ∃ before last,
      t.phases = before ++ [last, .finish, .idle] ∧ (before ++ [last]).IsPrefix (successPhases i) ∧
      (last = .head ∨ (last = .scan ∧ 128 ≤ t.err.errChar.toNat) ∨ (last = .pack ∧ t.err.errChar.toNat < 128)))
end

