-- ==== Sys2Proof/Laws/Memory.lean ====
section
/-! SUPPORT. What writing a buffer does: a read after a write gives the byte written, every other byte is left alone, and the
canonical form is kept. -/

namespace Sys2Proof.Machine

@[simp] theorem cellsFrom_nil (i : Nat) : cellsFrom i [] = [] := rfl

@[simp] theorem cellsFrom_cons (i : Nat) (b : Byte) (bs : List Byte) :
    cellsFrom i (b :: bs) = (i, b) :: cellsFrom (i + 1) bs := rfl

theorem mem_cellsFrom {i : Nat} {bs : List Byte} {c : Host.Cell} (h : c ∈ cellsFrom i bs) :
    i ≤ c.1 ∧ c.1 < i + bs.length := by
  induction bs generalizing i with
  | nil => simp at h
  | cons b bs ih =>
    rcases List.mem_cons.1 h with rfl | h
    · simp
    · have := ih h
      simp only [List.length_cons]
      omega

theorem get?_nil (i : Nat) : Memory.get? [] i = none := rfl

theorem get?_cons (c : Host.Cell) (m : Memory) (i : Nat) :
    Memory.get? (c :: m) i = if c.1 = i then some c.2 else Memory.get? m i := by
  by_cases h : c.1 = i <;> simp [Memory.get?, h]

theorem get?_append (m m' : Memory) (i : Nat) :
    Memory.get? (m ++ m') i = (Memory.get? m i).or (Memory.get? m' i) := by
  induction m with
  | nil => simp [get?_nil]
  | cons c m ih =>
    rw [List.cons_append, get?_cons, get?_cons, ih]
    split <;> simp

theorem get?_eq_none {m : Memory} {i : Nat} (h : ∀ c ∈ m, c.1 ≠ i) : Memory.get? m i = none := by
  induction m with
  | nil => rfl
  | cons c m ih =>
    rw [get?_cons, if_neg (h c (by simp))]
    exact ih fun d hd => h d (by simp [hd])

theorem get?_cellsFrom (start : Nat) (bs : List Byte) (i : Nat) :
    Memory.get? (cellsFrom start bs) i = if start ≤ i then bs[i - start]? else none := by
  induction bs generalizing start with
  | nil => simp [get?_nil]
  | cons b bs ih =>
    rw [cellsFrom_cons, get?_cons, ih]
    rcases Nat.lt_trichotomy i start with h | h | h
    · have h1 : ¬start ≤ i := by omega
      have h2 : ¬start + 1 ≤ i := by omega
      have h3 : start ≠ i := by omega
      simp [h1, h2, h3]
    · subst h
      simp
    · have h1 : start ≤ i := by omega
      have h2 : start + 1 ≤ i := by omega
      have h3 : start ≠ i := by omega
      have h4 : i - start = (i - (start + 1)) + 1 := by omega
      simp [h1, h2, h3, h4]

theorem get?_filter_of_pos {m : Memory} {p : Nat → Bool} {i : Nat} (h : p i = true) :
    Memory.get? (m.filter fun c => p c.1) i = Memory.get? m i := by
  induction m with
  | nil => rfl
  | cons c m ih =>
    rw [List.filter_cons]
    split
    · rw [get?_cons, get?_cons, ih]
    · rename_i hc
      have : c.1 ≠ i := by
        rintro rfl
        exact hc h
      rw [get?_cons, if_neg this, ih]

theorem get?_filter_of_neg {m : Memory} {p : Nat → Bool} {i : Nat} (h : p i = false) :
    Memory.get? (m.filter fun c => p c.1) i = none := by
  apply get?_eq_none
  rintro c hc rfl
  simp [h] at hc

/-- What an index holds after a write: the byte written there, or what it held before. -/
theorem get?_putRange (m : Memory) (start : Nat) (bs : List Byte) (i : Nat) :
    (m.putRange start bs).get? i =
      if start ≤ i ∧ i < start + bs.length then bs[i - start]? else m.get? i := by
  rw [Memory.putRange, get?_append, get?_append, get?_cellsFrom]
  rcases Nat.lt_or_ge i start with h | h
  · rw [get?_filter_of_pos (p := fun j => decide (j < start)) (by simpa using h),
      get?_filter_of_neg (p := fun j => decide (start + bs.length ≤ j)) (by simp; omega)]
    rw [if_neg (by omega), if_neg (by omega)]
    simp
  · rw [get?_filter_of_neg (p := fun j => decide (j < start)) (by simp; omega), if_pos h]
    rcases Nat.lt_or_ge i (start + bs.length) with h' | h'
    · rw [get?_filter_of_neg (p := fun j => decide (start + bs.length ≤ j)) (by simp; omega), if_pos ⟨h, h'⟩]
      simp
    · rw [get?_filter_of_pos (p := fun j => decide (start + bs.length ≤ j)) (by simpa using h'), if_neg (by omega),
        List.getElem?_eq_none (by omega)]
      simp

theorem wf_nil : Memory.wf [] := List.Pairwise.nil

theorem wf_cellsFrom (start : Nat) (bs : List Byte) : Memory.wf (cellsFrom start bs) := by
  induction bs generalizing start with
  | nil => exact wf_nil
  | cons b bs ih =>
    refine List.Pairwise.cons (fun c hc => ?_) (ih _)
    have := (mem_cellsFrom hc).1
    show start < c.1
    omega

/-- A write keeps the canonical form. -/
theorem wf_putRange {m : Memory} (h : m.wf) (start : Nat) (bs : List Byte) : (m.putRange start bs).wf := by
  refine List.pairwise_append.2 ⟨List.pairwise_append.2
    ⟨h.filter _, wf_cellsFrom _ _, ?_⟩, h.filter _, ?_⟩
  · intro c hc d hd
    have h1 := (mem_cellsFrom hd).1
    simp at hc
    omega
  · intro c hc d hd
    simp at hc hd
    rcases hc with hc | hc
    · omega
    · have := (mem_cellsFrom hc).2
      omega

/-- A write that ends below a bound keeps every listed index below it. -/
theorem below_putRange {m : Memory} {n : Nat} (h : m.below n) {start : Nat} {bs : List Byte}
    (hn : start + bs.length ≤ n) : (m.putRange start bs).below n := by
  intro c hc
  simp only [Memory.putRange, List.mem_append, List.mem_filter] at hc
  rcases hc with (hc | hc) | hc
  · exact h c hc.1
  · have := (mem_cellsFrom hc).2
    omega
  · exact h c hc.1

/-- A read of a byte of DST after a write of DST (R70). -/
theorem readByte_writeBytes_dst (start : Nat) (bs : List Byte) (s : State) (i : Nat) :
    readByte .dst i (writeBytes .dst start bs s) =
      if h : start ≤ i ∧ i < start + bs.length then bs[i - start]'(by omega) else readByte .dst i s := by
  simp only [readByte, writeBytes, State.memory, get?_putRange]
  by_cases h : start ≤ i ∧ i < start + bs.length
  · rw [if_pos h, dif_pos h, List.getElem?_eq_getElem (by omega)]
  · rw [if_neg h, dif_neg h]

/-- A write of DST leaves SRC alone. -/
theorem readByte_src_writeBytes_dst (start : Nat) (bs : List Byte) (s : State) (i : Nat) :
    readByte .src i (writeBytes .dst start bs s) = readByte .src i s := rfl

theorem leftovers_length (d start count : Nat) : (leftovers d start count).length = count := by
  simp [leftovers]

/-- The free bytes of a draw touch DST[start .. stop) alone. -/
theorem readByte_scratch_of_out {start stop : Nat} {s : State} {i : Nat} (h : i < start ∨ stop ≤ i) :
    readByte .dst i (scratch start stop s) = readByte .dst i s := by
  have := readByte_writeBytes_dst start (leftovers s.draws start (stop - start)) s i
  rw [dif_neg (by rw [leftovers_length]; omega)] at this
  exact this

/-- Inside DST[start .. stop) a draw leaves its free bytes (R67). -/
theorem readByte_scratch_of_in {start stop : Nat} {s : State} {i : Nat} (h : start ≤ i) (h' : i < stop) :
    readByte .dst i (scratch start stop s) = Config.leftover s.draws i := by
  have := readByte_writeBytes_dst start (leftovers s.draws start (stop - start)) s i
  rw [dif_pos (by rw [leftovers_length]; omega)] at this
  refine this.trans ?_
  have hi : start + (i - start) = i := by omega
  simp [leftovers, hi]

/-- The memories after reset have the canonical form. -/
theorem wf_reset : State.reset.src.wf ∧ State.reset.dst.wf := ⟨wf_nil, wf_nil⟩

/-- A write of either buffer keeps the canonical form of both. -/
theorem wf_writeBytes {s : State} (h : s.src.wf ∧ s.dst.wf) (sp : Space) (start : Nat) (bs : List Byte) :
    (writeBytes sp start bs s).src.wf ∧ (writeBytes sp start bs s).dst.wf := by
  cases sp
  · exact ⟨wf_putRange h.1 _ _, h.2⟩
  · exact ⟨h.1, wf_putRange h.2 _ _⟩

/-- So does a draw of free bytes. -/
theorem wf_scratch {s : State} (h : s.src.wf ∧ s.dst.wf) (start stop : Nat) :
    (scratch start stop s).src.wf ∧ (scratch start stop s).dst.wf := wf_writeBytes h _ _ _

/-- So does a failure. -/
theorem wf_raise {s : State} (h : s.src.wf ∧ s.dst.wf) (e : CommandError) :
    (raise e s).src.wf ∧ (raise e s).dst.wf := by
  show (dstAfterError e s).src.wf ∧ (dstAfterError e s).dst.wf
  rw [dstAfterError]
  split
  · exact h
  · exact wf_scratch h _ _

/-- So does the success of a buffer command. -/
theorem wf_succeed {s : State} (h : s.src.wf ∧ s.dst.wf) (result : List Byte) (version : BitVec 5) :
    (succeed result version s).src.wf ∧ (succeed result version s).dst.wf := wf_scratch (wf_writeBytes h _ _ _) _ _

/-- So does a pulse of the reset input. -/
theorem wf_resetInput {s : State} (h : s.src.wf ∧ s.dst.wf) : (resetInput s).src.wf ∧ (resetInput s).dst.wf := by
  rw [resetInput]
  split
  · exact wf_scratch h _ _
  · exact wf_reset

end Sys2Proof.Machine
end

