-- ==== Sys2Proof/Laws/State.lean ====
section
/-! SUPPORT. One lemma for each field and each update of the state, so that no proof unfolds a record update. -/

namespace Sys2Proof.Machine

variable (s : State)

/-! ### writeBytes -/

@[simp] theorem writeBytes_cmd (sp : Space) (start : Nat) (bs : List Byte) :
    (writeBytes sp start bs s).cmd = s.cmd := by cases sp <;> rfl
@[simp] theorem writeBytes_status (sp : Space) (start : Nat) (bs : List Byte) :
    (writeBytes sp start bs s).status = s.status := by cases sp <;> rfl
@[simp] theorem writeBytes_srcLen (sp : Space) (start : Nat) (bs : List Byte) :
    (writeBytes sp start bs s).srcLen = s.srcLen := by cases sp <;> rfl
@[simp] theorem writeBytes_dstCap (sp : Space) (start : Nat) (bs : List Byte) :
    (writeBytes sp start bs s).dstCap = s.dstCap := by cases sp <;> rfl
@[simp] theorem writeBytes_version (sp : Space) (start : Nat) (bs : List Byte) :
    (writeBytes sp start bs s).version = s.version := by cases sp <;> rfl
@[simp] theorem writeBytes_prefixReg (sp : Space) (start : Nat) (bs : List Byte) :
    (writeBytes sp start bs s).prefixReg = s.prefixReg := by cases sp <;> rfl
@[simp] theorem writeBytes_resultLen (sp : Space) (start : Nat) (bs : List Byte) :
    (writeBytes sp start bs s).resultLen = s.resultLen := by cases sp <;> rfl
@[simp] theorem writeBytes_resultVersion (sp : Space) (start : Nat) (bs : List Byte) :
    (writeBytes sp start bs s).resultVersion = s.resultVersion := by cases sp <;> rfl
@[simp] theorem writeBytes_err (sp : Space) (start : Nat) (bs : List Byte) :
    (writeBytes sp start bs s).err = s.err := by cases sp <;> rfl
@[simp] theorem writeBytes_work (sp : Space) (start : Nat) (bs : List Byte) :
    (writeBytes sp start bs s).work = s.work := by cases sp <;> rfl
@[simp] theorem writeBytes_params (sp : Space) (start : Nat) (bs : List Byte) :
    (writeBytes sp start bs s).params = s.params := by cases sp <;> rfl
@[simp] theorem writeBytes_script (sp : Space) (start : Nat) (bs : List Byte) :
    (writeBytes sp start bs s).script = s.script := by cases sp <;> rfl
@[simp] theorem writeBytes_reads (sp : Space) (start : Nat) (bs : List Byte) :
    (writeBytes sp start bs s).reads = s.reads := by cases sp <;> rfl
@[simp] theorem writeBytes_draws (sp : Space) (start : Nat) (bs : List Byte) :
    (writeBytes sp start bs s).draws = s.draws := by cases sp <;> rfl
@[simp] theorem writeBytes_epoch (sp : Space) (start : Nat) (bs : List Byte) :
    (writeBytes sp start bs s).epoch = s.epoch := by cases sp <;> rfl
@[simp] theorem writeBytes_phases (sp : Space) (start : Nat) (bs : List Byte) :
    (writeBytes sp start bs s).phases = s.phases := by cases sp <;> rfl

/-! ### scratch -/

@[simp] theorem scratch_cmd (start stop : Nat) : (scratch start stop s).cmd = s.cmd := rfl
@[simp] theorem scratch_status (start stop : Nat) : (scratch start stop s).status = s.status := rfl
@[simp] theorem scratch_srcLen (start stop : Nat) : (scratch start stop s).srcLen = s.srcLen := rfl
@[simp] theorem scratch_dstCap (start stop : Nat) : (scratch start stop s).dstCap = s.dstCap := rfl
@[simp] theorem scratch_version (start stop : Nat) : (scratch start stop s).version = s.version := rfl
@[simp] theorem scratch_prefixReg (start stop : Nat) : (scratch start stop s).prefixReg = s.prefixReg := rfl
@[simp] theorem scratch_resultLen (start stop : Nat) : (scratch start stop s).resultLen = s.resultLen := rfl
@[simp] theorem scratch_resultVersion (start stop : Nat) : (scratch start stop s).resultVersion = s.resultVersion := rfl
@[simp] theorem scratch_err (start stop : Nat) : (scratch start stop s).err = s.err := rfl
@[simp] theorem scratch_src (start stop : Nat) : (scratch start stop s).src = s.src := rfl
@[simp] theorem scratch_dst (start stop : Nat) :
    (scratch start stop s).dst = s.dst.putRange start (leftovers s.draws start (stop - start)) := rfl
@[simp] theorem scratch_work (start stop : Nat) : (scratch start stop s).work = s.work := rfl
@[simp] theorem scratch_params (start stop : Nat) : (scratch start stop s).params = s.params := rfl
@[simp] theorem scratch_script (start stop : Nat) : (scratch start stop s).script = s.script := rfl
@[simp] theorem scratch_reads (start stop : Nat) : (scratch start stop s).reads = s.reads := rfl
@[simp] theorem scratch_draws (start stop : Nat) : (scratch start stop s).draws = s.draws + 1 := rfl
@[simp] theorem scratch_epoch (start stop : Nat) : (scratch start stop s).epoch = s.epoch := rfl
@[simp] theorem scratch_phases (start stop : Nat) : (scratch start stop s).phases = s.phases := rfl

/-! ### beginCommand -/

@[simp] theorem beginCommand_cmd : (beginCommand s).cmd = s.cmd := rfl
@[simp] theorem beginCommand_status : (beginCommand s).status = statusBusy := rfl
@[simp] theorem beginCommand_srcLen : (beginCommand s).srcLen = s.srcLen := rfl
@[simp] theorem beginCommand_dstCap : (beginCommand s).dstCap = s.dstCap := rfl
@[simp] theorem beginCommand_version : (beginCommand s).version = s.version := rfl
@[simp] theorem beginCommand_prefixReg : (beginCommand s).prefixReg = s.prefixReg := rfl
@[simp] theorem beginCommand_resultLen : (beginCommand s).resultLen = 0 := rfl
@[simp] theorem beginCommand_resultVersion : (beginCommand s).resultVersion = 0 := rfl
@[simp] theorem beginCommand_err : (beginCommand s).err = ErrorRecord.zero := rfl
@[simp] theorem beginCommand_src : (beginCommand s).src = s.src := rfl
@[simp] theorem beginCommand_dst : (beginCommand s).dst = s.dst := rfl
@[simp] theorem beginCommand_work : (beginCommand s).work = s.work.atIssue := rfl
@[simp] theorem beginCommand_params : (beginCommand s).params = s.params := rfl
@[simp] theorem beginCommand_script : (beginCommand s).script = s.script := rfl
@[simp] theorem beginCommand_reads : (beginCommand s).reads = s.reads := rfl
@[simp] theorem beginCommand_draws : (beginCommand s).draws = s.draws := rfl
@[simp] theorem beginCommand_epoch : (beginCommand s).epoch = s.epoch := rfl
@[simp] theorem beginCommand_phases : (beginCommand s).phases = [.args] := rfl

/-! ### issue -/

@[simp] theorem issue_cmd (b : Byte) : (issue b s).cmd = b := rfl
@[simp] theorem issue_status (b : Byte) : (issue b s).status = statusBusy := rfl
@[simp] theorem issue_srcLen (b : Byte) : (issue b s).srcLen = s.srcLen := rfl
@[simp] theorem issue_dstCap (b : Byte) : (issue b s).dstCap = s.dstCap := rfl
@[simp] theorem issue_version (b : Byte) : (issue b s).version = s.version := rfl
@[simp] theorem issue_prefixReg (b : Byte) : (issue b s).prefixReg = s.prefixReg := rfl
@[simp] theorem issue_resultLen (b : Byte) : (issue b s).resultLen = 0 := rfl
@[simp] theorem issue_resultVersion (b : Byte) : (issue b s).resultVersion = 0 := rfl
@[simp] theorem issue_err (b : Byte) : (issue b s).err = ErrorRecord.zero := rfl
@[simp] theorem issue_src (b : Byte) : (issue b s).src = s.src := rfl
@[simp] theorem issue_dst (b : Byte) : (issue b s).dst = s.dst := rfl
@[simp] theorem issue_work (b : Byte) : (issue b s).work = s.work.atIssue := rfl
@[simp] theorem issue_params (b : Byte) : (issue b s).params = s.params := rfl
@[simp] theorem issue_script (b : Byte) : (issue b s).script = s.script := rfl
@[simp] theorem issue_reads (b : Byte) : (issue b s).reads = s.reads := rfl
@[simp] theorem issue_draws (b : Byte) : (issue b s).draws = s.draws := rfl
@[simp] theorem issue_epoch (b : Byte) : (issue b s).epoch = s.epoch := rfl
@[simp] theorem issue_phases (b : Byte) : (issue b s).phases = [.args] := rfl

/-! ### goThrough -/

@[simp] theorem goThrough_cmd (ps : List Phase) : (goThrough ps s).cmd = s.cmd := rfl
@[simp] theorem goThrough_status (ps : List Phase) : (goThrough ps s).status = s.status := rfl
@[simp] theorem goThrough_srcLen (ps : List Phase) : (goThrough ps s).srcLen = s.srcLen := rfl
@[simp] theorem goThrough_dstCap (ps : List Phase) : (goThrough ps s).dstCap = s.dstCap := rfl
@[simp] theorem goThrough_version (ps : List Phase) : (goThrough ps s).version = s.version := rfl
@[simp] theorem goThrough_prefixReg (ps : List Phase) : (goThrough ps s).prefixReg = s.prefixReg := rfl
@[simp] theorem goThrough_resultLen (ps : List Phase) : (goThrough ps s).resultLen = s.resultLen := rfl
@[simp] theorem goThrough_resultVersion (ps : List Phase) : (goThrough ps s).resultVersion = s.resultVersion := rfl
@[simp] theorem goThrough_err (ps : List Phase) : (goThrough ps s).err = s.err := rfl
@[simp] theorem goThrough_src (ps : List Phase) : (goThrough ps s).src = s.src := rfl
@[simp] theorem goThrough_dst (ps : List Phase) : (goThrough ps s).dst = s.dst := rfl
@[simp] theorem goThrough_work (ps : List Phase) :
    (goThrough ps s).work = { s.work with phase := ps.getLastD s.work.phase } := rfl
@[simp] theorem goThrough_params (ps : List Phase) : (goThrough ps s).params = s.params := rfl
@[simp] theorem goThrough_script (ps : List Phase) : (goThrough ps s).script = s.script := rfl
@[simp] theorem goThrough_reads (ps : List Phase) : (goThrough ps s).reads = s.reads := rfl
@[simp] theorem goThrough_draws (ps : List Phase) : (goThrough ps s).draws = s.draws := rfl
@[simp] theorem goThrough_epoch (ps : List Phase) : (goThrough ps s).epoch = s.epoch := rfl
@[simp] theorem goThrough_phases (ps : List Phase) : (goThrough ps s).phases = s.phases ++ ps := rfl

/-! ### setVer -/

@[simp] theorem setVer_cmd (v : BitVec 8) : (setVer v s).cmd = s.cmd := rfl
@[simp] theorem setVer_status (v : BitVec 8) : (setVer v s).status = s.status := rfl
@[simp] theorem setVer_srcLen (v : BitVec 8) : (setVer v s).srcLen = s.srcLen := rfl
@[simp] theorem setVer_dstCap (v : BitVec 8) : (setVer v s).dstCap = s.dstCap := rfl
@[simp] theorem setVer_version (v : BitVec 8) : (setVer v s).version = s.version := rfl
@[simp] theorem setVer_prefixReg (v : BitVec 8) : (setVer v s).prefixReg = s.prefixReg := rfl
@[simp] theorem setVer_resultLen (v : BitVec 8) : (setVer v s).resultLen = s.resultLen := rfl
@[simp] theorem setVer_resultVersion (v : BitVec 8) : (setVer v s).resultVersion = s.resultVersion := rfl
@[simp] theorem setVer_err (v : BitVec 8) : (setVer v s).err = s.err := rfl
@[simp] theorem setVer_src (v : BitVec 8) : (setVer v s).src = s.src := rfl
@[simp] theorem setVer_dst (v : BitVec 8) : (setVer v s).dst = s.dst := rfl
@[simp] theorem setVer_work (v : BitVec 8) : (setVer v s).work = { s.work with ver := v } := rfl
@[simp] theorem setVer_params (v : BitVec 8) : (setVer v s).params = s.params := rfl
@[simp] theorem setVer_script (v : BitVec 8) : (setVer v s).script = s.script := rfl
@[simp] theorem setVer_reads (v : BitVec 8) : (setVer v s).reads = s.reads := rfl
@[simp] theorem setVer_draws (v : BitVec 8) : (setVer v s).draws = s.draws := rfl
@[simp] theorem setVer_epoch (v : BitVec 8) : (setVer v s).epoch = s.epoch := rfl
@[simp] theorem setVer_phases (v : BitVec 8) : (setVer v s).phases = s.phases := rfl

/-! ### setChk -/

@[simp] theorem setChk_cmd (q : Quad) : (setChk q s).cmd = s.cmd := rfl
@[simp] theorem setChk_status (q : Quad) : (setChk q s).status = s.status := rfl
@[simp] theorem setChk_srcLen (q : Quad) : (setChk q s).srcLen = s.srcLen := rfl
@[simp] theorem setChk_dstCap (q : Quad) : (setChk q s).dstCap = s.dstCap := rfl
@[simp] theorem setChk_version (q : Quad) : (setChk q s).version = s.version := rfl
@[simp] theorem setChk_prefixReg (q : Quad) : (setChk q s).prefixReg = s.prefixReg := rfl
@[simp] theorem setChk_resultLen (q : Quad) : (setChk q s).resultLen = s.resultLen := rfl
@[simp] theorem setChk_resultVersion (q : Quad) : (setChk q s).resultVersion = s.resultVersion := rfl
@[simp] theorem setChk_err (q : Quad) : (setChk q s).err = s.err := rfl
@[simp] theorem setChk_src (q : Quad) : (setChk q s).src = s.src := rfl
@[simp] theorem setChk_dst (q : Quad) : (setChk q s).dst = s.dst := rfl
@[simp] theorem setChk_work (q : Quad) :
    (setChk q s).work = { s.work with chk := q, sha := Config.shaLeftover s.draws } := rfl
@[simp] theorem setChk_params (q : Quad) : (setChk q s).params = s.params := rfl
@[simp] theorem setChk_script (q : Quad) : (setChk q s).script = s.script := rfl
@[simp] theorem setChk_reads (q : Quad) : (setChk q s).reads = s.reads := rfl
@[simp] theorem setChk_draws (q : Quad) : (setChk q s).draws = s.draws + 1 := rfl
@[simp] theorem setChk_epoch (q : Quad) : (setChk q s).epoch = s.epoch := rfl
@[simp] theorem setChk_phases (q : Quad) : (setChk q s).phases = s.phases := rfl

/-! ### engineRun_load -/

@[simp] theorem engineRun_load_cmd (r : EngineRun) (base off : BitVec 2) : (r.load base off s).cmd = s.cmd := rfl
@[simp] theorem engineRun_load_status (r : EngineRun) (base off : BitVec 2) :
    (r.load base off s).status = s.status := rfl
@[simp] theorem engineRun_load_srcLen (r : EngineRun) (base off : BitVec 2) :
    (r.load base off s).srcLen = s.srcLen := rfl
@[simp] theorem engineRun_load_dstCap (r : EngineRun) (base off : BitVec 2) :
    (r.load base off s).dstCap = s.dstCap := rfl
@[simp] theorem engineRun_load_version (r : EngineRun) (base off : BitVec 2) :
    (r.load base off s).version = s.version := rfl
@[simp] theorem engineRun_load_prefixReg (r : EngineRun) (base off : BitVec 2) :
    (r.load base off s).prefixReg = s.prefixReg := rfl
@[simp] theorem engineRun_load_resultLen (r : EngineRun) (base off : BitVec 2) :
    (r.load base off s).resultLen = s.resultLen := rfl
@[simp] theorem engineRun_load_resultVersion (r : EngineRun) (base off : BitVec 2) :
    (r.load base off s).resultVersion = s.resultVersion := rfl
@[simp] theorem engineRun_load_err (r : EngineRun) (base off : BitVec 2) : (r.load base off s).err = s.err := rfl
@[simp] theorem engineRun_load_src (r : EngineRun) (base off : BitVec 2) : (r.load base off s).src = s.src := rfl
@[simp] theorem engineRun_load_dst (r : EngineRun) (base off : BitVec 2) : (r.load base off s).dst = s.dst := rfl
@[simp] theorem engineRun_load_params (r : EngineRun) (base off : BitVec 2) :
    (r.load base off s).params = s.params := rfl
@[simp] theorem engineRun_load_script (r : EngineRun) (base off : BitVec 2) :
    (r.load base off s).script = s.script := rfl
@[simp] theorem engineRun_load_reads (r : EngineRun) (base off : BitVec 2) : (r.load base off s).reads = s.reads := rfl
@[simp] theorem engineRun_load_draws (r : EngineRun) (base off : BitVec 2) : (r.load base off s).draws = s.draws := rfl
@[simp] theorem engineRun_load_epoch (r : EngineRun) (base off : BitVec 2) : (r.load base off s).epoch = s.epoch := rfl
@[simp] theorem engineRun_load_phases (r : EngineRun) (base off : BitVec 2) :
    (r.load base off s).phases = s.phases := rfl

/-! ### badSymbol_load -/

@[simp] theorem badSymbol_load_cmd (b : BadSymbol) (n : Nat) (off : BitVec 2) : (b.load n off s).cmd = s.cmd := rfl
@[simp] theorem badSymbol_load_status (b : BadSymbol) (n : Nat) (off : BitVec 2) :
    (b.load n off s).status = s.status := rfl
@[simp] theorem badSymbol_load_srcLen (b : BadSymbol) (n : Nat) (off : BitVec 2) :
    (b.load n off s).srcLen = s.srcLen := rfl
@[simp] theorem badSymbol_load_dstCap (b : BadSymbol) (n : Nat) (off : BitVec 2) :
    (b.load n off s).dstCap = s.dstCap := rfl
@[simp] theorem badSymbol_load_version (b : BadSymbol) (n : Nat) (off : BitVec 2) :
    (b.load n off s).version = s.version := rfl
@[simp] theorem badSymbol_load_prefixReg (b : BadSymbol) (n : Nat) (off : BitVec 2) :
    (b.load n off s).prefixReg = s.prefixReg := rfl
@[simp] theorem badSymbol_load_resultLen (b : BadSymbol) (n : Nat) (off : BitVec 2) :
    (b.load n off s).resultLen = s.resultLen := rfl
@[simp] theorem badSymbol_load_resultVersion (b : BadSymbol) (n : Nat) (off : BitVec 2) :
    (b.load n off s).resultVersion = s.resultVersion := rfl
@[simp] theorem badSymbol_load_err (b : BadSymbol) (n : Nat) (off : BitVec 2) : (b.load n off s).err = s.err := rfl
@[simp] theorem badSymbol_load_src (b : BadSymbol) (n : Nat) (off : BitVec 2) : (b.load n off s).src = s.src := rfl
@[simp] theorem badSymbol_load_dst (b : BadSymbol) (n : Nat) (off : BitVec 2) : (b.load n off s).dst = s.dst := rfl
@[simp] theorem badSymbol_load_params (b : BadSymbol) (n : Nat) (off : BitVec 2) :
    (b.load n off s).params = s.params := rfl
@[simp] theorem badSymbol_load_script (b : BadSymbol) (n : Nat) (off : BitVec 2) :
    (b.load n off s).script = s.script := rfl
@[simp] theorem badSymbol_load_reads (b : BadSymbol) (n : Nat) (off : BitVec 2) :
    (b.load n off s).reads = s.reads := rfl
@[simp] theorem badSymbol_load_draws (b : BadSymbol) (n : Nat) (off : BitVec 2) :
    (b.load n off s).draws = s.draws := rfl
@[simp] theorem badSymbol_load_epoch (b : BadSymbol) (n : Nat) (off : BitVec 2) :
    (b.load n off s).epoch = s.epoch := rfl
@[simp] theorem badSymbol_load_phases (b : BadSymbol) (n : Nat) (off : BitVec 2) :
    (b.load n off s).phases = s.phases := rfl

/-! ### finishWith -/

@[simp] theorem finishWith_cmd (len : Nat) (v : BitVec 5) : (finishWith len v s).cmd = s.cmd := rfl
@[simp] theorem finishWith_status (len : Nat) (v : BitVec 5) :
    (finishWith len v s).status = completionStatus s.err.errKind := rfl
@[simp] theorem finishWith_srcLen (len : Nat) (v : BitVec 5) : (finishWith len v s).srcLen = s.srcLen := rfl
@[simp] theorem finishWith_dstCap (len : Nat) (v : BitVec 5) : (finishWith len v s).dstCap = s.dstCap := rfl
@[simp] theorem finishWith_version (len : Nat) (v : BitVec 5) : (finishWith len v s).version = s.version := rfl
@[simp] theorem finishWith_prefixReg (len : Nat) (v : BitVec 5) : (finishWith len v s).prefixReg = s.prefixReg := rfl
@[simp] theorem finishWith_resultLen (len : Nat) (v : BitVec 5) :
    (finishWith len v s).resultLen = BitVec.ofNat 64 len := rfl
@[simp] theorem finishWith_resultVersion (len : Nat) (v : BitVec 5) :
    (finishWith len v s).resultVersion = v.setWidth 8 := rfl
@[simp] theorem finishWith_err (len : Nat) (v : BitVec 5) : (finishWith len v s).err = s.err := rfl
@[simp] theorem finishWith_src (len : Nat) (v : BitVec 5) : (finishWith len v s).src = s.src := rfl
@[simp] theorem finishWith_dst (len : Nat) (v : BitVec 5) : (finishWith len v s).dst = s.dst := rfl
@[simp] theorem finishWith_work (len : Nat) (v : BitVec 5) :
    (finishWith len v s).work = { s.work with phase := .idle } := rfl
@[simp] theorem finishWith_params (len : Nat) (v : BitVec 5) : (finishWith len v s).params = s.params := rfl
@[simp] theorem finishWith_script (len : Nat) (v : BitVec 5) : (finishWith len v s).script = s.script := rfl
@[simp] theorem finishWith_reads (len : Nat) (v : BitVec 5) : (finishWith len v s).reads = s.reads := rfl
@[simp] theorem finishWith_draws (len : Nat) (v : BitVec 5) : (finishWith len v s).draws = s.draws := rfl
@[simp] theorem finishWith_epoch (len : Nat) (v : BitVec 5) : (finishWith len v s).epoch = s.epoch := rfl
@[simp] theorem finishWith_phases (len : Nat) (v : BitVec 5) :
    (finishWith len v s).phases = s.phases ++ [.finish, .idle] := rfl

/-! ### succeed -/

@[simp] theorem succeed_cmd (result : List Byte) (v : BitVec 5) : (succeed result v s).cmd = s.cmd := rfl
@[simp] theorem succeed_status (result : List Byte) (v : BitVec 5) :
    (succeed result v s).status = completionStatus s.err.errKind := rfl
@[simp] theorem succeed_srcLen (result : List Byte) (v : BitVec 5) : (succeed result v s).srcLen = s.srcLen := rfl
@[simp] theorem succeed_dstCap (result : List Byte) (v : BitVec 5) : (succeed result v s).dstCap = s.dstCap := rfl
@[simp] theorem succeed_version (result : List Byte) (v : BitVec 5) : (succeed result v s).version = s.version := rfl
@[simp] theorem succeed_prefixReg (result : List Byte) (v : BitVec 5) :
    (succeed result v s).prefixReg = s.prefixReg := rfl
@[simp] theorem succeed_resultLen (result : List Byte) (v : BitVec 5) :
    (succeed result v s).resultLen = BitVec.ofNat 64 result.length := rfl
@[simp] theorem succeed_resultVersion (result : List Byte) (v : BitVec 5) :
    (succeed result v s).resultVersion = v.setWidth 8 := rfl
@[simp] theorem succeed_err (result : List Byte) (v : BitVec 5) : (succeed result v s).err = s.err := rfl
@[simp] theorem succeed_src (result : List Byte) (v : BitVec 5) : (succeed result v s).src = s.src := rfl
@[simp] theorem succeed_work (result : List Byte) (v : BitVec 5) :
    (succeed result v s).work = { s.work with phase := .idle } := rfl
@[simp] theorem succeed_params (result : List Byte) (v : BitVec 5) : (succeed result v s).params = s.params := rfl
@[simp] theorem succeed_script (result : List Byte) (v : BitVec 5) : (succeed result v s).script = s.script := rfl
@[simp] theorem succeed_reads (result : List Byte) (v : BitVec 5) : (succeed result v s).reads = s.reads := rfl
@[simp] theorem succeed_draws (result : List Byte) (v : BitVec 5) : (succeed result v s).draws = s.draws + 1 := rfl
@[simp] theorem succeed_epoch (result : List Byte) (v : BitVec 5) : (succeed result v s).epoch = s.epoch := rfl
@[simp] theorem succeed_phases (result : List Byte) (v : BitVec 5) :
    (succeed result v s).phases = s.phases ++ [.finish, .idle] := rfl

/-! ### dstAfterError -/

@[simp] theorem dstAfterError_cmd (e : CommandError) :
    (dstAfterError e s).cmd = s.cmd := by unfold dstAfterError; split <;> rfl
@[simp] theorem dstAfterError_status (e : CommandError) :
    (dstAfterError e s).status = s.status := by unfold dstAfterError; split <;> rfl
@[simp] theorem dstAfterError_srcLen (e : CommandError) :
    (dstAfterError e s).srcLen = s.srcLen := by unfold dstAfterError; split <;> rfl
@[simp] theorem dstAfterError_dstCap (e : CommandError) :
    (dstAfterError e s).dstCap = s.dstCap := by unfold dstAfterError; split <;> rfl
@[simp] theorem dstAfterError_version (e : CommandError) :
    (dstAfterError e s).version = s.version := by unfold dstAfterError; split <;> rfl
@[simp] theorem dstAfterError_prefixReg (e : CommandError) :
    (dstAfterError e s).prefixReg = s.prefixReg := by unfold dstAfterError; split <;> rfl
@[simp] theorem dstAfterError_resultLen (e : CommandError) :
    (dstAfterError e s).resultLen = s.resultLen := by unfold dstAfterError; split <;> rfl
@[simp] theorem dstAfterError_resultVersion (e : CommandError) :
    (dstAfterError e s).resultVersion = s.resultVersion := by unfold dstAfterError; split <;> rfl
@[simp] theorem dstAfterError_err (e : CommandError) :
    (dstAfterError e s).err = s.err := by unfold dstAfterError; split <;> rfl
@[simp] theorem dstAfterError_src (e : CommandError) :
    (dstAfterError e s).src = s.src := by unfold dstAfterError; split <;> rfl
@[simp] theorem dstAfterError_work (e : CommandError) :
    (dstAfterError e s).work = s.work := by unfold dstAfterError; split <;> rfl
@[simp] theorem dstAfterError_params (e : CommandError) :
    (dstAfterError e s).params = s.params := by unfold dstAfterError; split <;> rfl
@[simp] theorem dstAfterError_script (e : CommandError) :
    (dstAfterError e s).script = s.script := by unfold dstAfterError; split <;> rfl
@[simp] theorem dstAfterError_reads (e : CommandError) :
    (dstAfterError e s).reads = s.reads := by unfold dstAfterError; split <;> rfl
@[simp] theorem dstAfterError_epoch (e : CommandError) :
    (dstAfterError e s).epoch = s.epoch := by unfold dstAfterError; split <;> rfl
@[simp] theorem dstAfterError_phases (e : CommandError) :
    (dstAfterError e s).phases = s.phases := by unfold dstAfterError; split <;> rfl

/-! ### raise -/

@[simp] theorem raise_cmd (e : CommandError) : (raise e s).cmd = s.cmd := by unfold raise; simp [goThrough]
@[simp] theorem raise_status (e : CommandError) : (raise e s).status = completionStatus e.record.errKind := rfl
@[simp] theorem raise_srcLen (e : CommandError) : (raise e s).srcLen = s.srcLen := by unfold raise; simp [goThrough]
@[simp] theorem raise_dstCap (e : CommandError) : (raise e s).dstCap = s.dstCap := by unfold raise; simp [goThrough]
@[simp] theorem raise_version (e : CommandError) : (raise e s).version = s.version := by unfold raise; simp [goThrough]
@[simp] theorem raise_prefixReg (e : CommandError) :
    (raise e s).prefixReg = s.prefixReg := by unfold raise; simp [goThrough]
@[simp] theorem raise_resultLen (e : CommandError) : (raise e s).resultLen = 0 := rfl
@[simp] theorem raise_resultVersion (e : CommandError) : (raise e s).resultVersion = 0 := rfl
@[simp] theorem raise_err (e : CommandError) : (raise e s).err = e.record := rfl
@[simp] theorem raise_src (e : CommandError) : (raise e s).src = s.src := by unfold raise; simp [goThrough]
@[simp] theorem raise_dst (e : CommandError) : (raise e s).dst = (dstAfterError e s).dst := rfl
@[simp] theorem raise_work (e : CommandError) :
    (raise e s).work = { s.work with phase := .idle } := by unfold raise; simp [goThrough]
@[simp] theorem raise_params (e : CommandError) : (raise e s).params = s.params := by unfold raise; simp [goThrough]
@[simp] theorem raise_script (e : CommandError) : (raise e s).script = s.script := by unfold raise; simp [goThrough]
@[simp] theorem raise_reads (e : CommandError) : (raise e s).reads = s.reads := by unfold raise; simp [goThrough]
@[simp] theorem raise_draws (e : CommandError) : (raise e s).draws = (dstAfterError e s).draws := rfl
@[simp] theorem raise_epoch (e : CommandError) : (raise e s).epoch = s.epoch := by unfold raise; simp [goThrough]
@[simp] theorem raise_phases (e : CommandError) :
    (raise e s).phases = s.phases ++ [.finish, .idle] := by unfold raise; simp [goThrough]

/-! ### drawn -/

@[simp] theorem drawn_cmd : (drawn s).cmd = s.cmd := rfl
@[simp] theorem drawn_status : (drawn s).status = s.status := rfl
@[simp] theorem drawn_srcLen : (drawn s).srcLen = s.srcLen := rfl
@[simp] theorem drawn_dstCap : (drawn s).dstCap = s.dstCap := rfl
@[simp] theorem drawn_version : (drawn s).version = s.version := rfl
@[simp] theorem drawn_prefixReg : (drawn s).prefixReg = s.prefixReg := rfl
@[simp] theorem drawn_resultLen : (drawn s).resultLen = s.resultLen := rfl
@[simp] theorem drawn_resultVersion : (drawn s).resultVersion = s.resultVersion := rfl
@[simp] theorem drawn_err : (drawn s).err = s.err := rfl
@[simp] theorem drawn_src : (drawn s).src = s.src := rfl
@[simp] theorem drawn_dst : (drawn s).dst = s.dst := rfl
@[simp] theorem drawn_work : (drawn s).work = s.work := rfl
@[simp] theorem drawn_params : (drawn s).params = s.params := rfl
@[simp] theorem drawn_script : (drawn s).script = s.script := rfl
@[simp] theorem drawn_reads : (drawn s).reads = s.reads := rfl
@[simp] theorem drawn_draws : (drawn s).draws = s.draws + 1 := rfl
@[simp] theorem drawn_epoch : (drawn s).epoch = s.epoch := rfl
@[simp] theorem drawn_phases : (drawn s).phases = s.phases := rfl

/-! ### deliver -/

@[simp] theorem deliver_cmd (v : Word64) : (deliver v s).cmd = s.cmd := rfl
@[simp] theorem deliver_status (v : Word64) : (deliver v s).status = s.status := rfl
@[simp] theorem deliver_srcLen (v : Word64) : (deliver v s).srcLen = s.srcLen := rfl
@[simp] theorem deliver_dstCap (v : Word64) : (deliver v s).dstCap = s.dstCap := rfl
@[simp] theorem deliver_version (v : Word64) : (deliver v s).version = s.version := rfl
@[simp] theorem deliver_prefixReg (v : Word64) : (deliver v s).prefixReg = s.prefixReg := rfl
@[simp] theorem deliver_resultLen (v : Word64) : (deliver v s).resultLen = s.resultLen := rfl
@[simp] theorem deliver_resultVersion (v : Word64) : (deliver v s).resultVersion = s.resultVersion := rfl
@[simp] theorem deliver_err (v : Word64) : (deliver v s).err = s.err := rfl
@[simp] theorem deliver_src (v : Word64) : (deliver v s).src = s.src := rfl
@[simp] theorem deliver_dst (v : Word64) : (deliver v s).dst = s.dst := rfl
@[simp] theorem deliver_work (v : Word64) : (deliver v s).work = s.work := rfl
@[simp] theorem deliver_params (v : Word64) : (deliver v s).params = s.params := rfl
@[simp] theorem deliver_script (v : Word64) : (deliver v s).script = s.script := rfl
@[simp] theorem deliver_reads (v : Word64) : (deliver v s).reads = s.reads ++ [v] := rfl
@[simp] theorem deliver_draws (v : Word64) : (deliver v s).draws = s.draws + 1 := rfl
@[simp] theorem deliver_epoch (v : Word64) : (deliver v s).epoch = s.epoch := rfl
@[simp] theorem deliver_phases (v : Word64) : (deliver v s).phases = s.phases := rfl

/-! ### resetRegisters -/

@[simp] theorem resetRegisters_cmd : (resetRegisters s).cmd = 0 := rfl
@[simp] theorem resetRegisters_status : (resetRegisters s).status = statusIdle := rfl
@[simp] theorem resetRegisters_srcLen : (resetRegisters s).srcLen = 0 := rfl
@[simp] theorem resetRegisters_dstCap : (resetRegisters s).dstCap = 0 := rfl
@[simp] theorem resetRegisters_version : (resetRegisters s).version = 0 := rfl
@[simp] theorem resetRegisters_prefixReg : (resetRegisters s).prefixReg = 0 := rfl
@[simp] theorem resetRegisters_resultLen : (resetRegisters s).resultLen = 0 := rfl
@[simp] theorem resetRegisters_resultVersion : (resetRegisters s).resultVersion = 0 := rfl
@[simp] theorem resetRegisters_err : (resetRegisters s).err = ErrorRecord.zero := rfl
@[simp] theorem resetRegisters_src : (resetRegisters s).src = s.src := rfl
@[simp] theorem resetRegisters_dst : (resetRegisters s).dst = s.dst := rfl
@[simp] theorem resetRegisters_work : (resetRegisters s).work = Working.atReset := rfl
@[simp] theorem resetRegisters_params : (resetRegisters s).params = s.params := rfl
@[simp] theorem resetRegisters_script : (resetRegisters s).script = s.script := rfl
@[simp] theorem resetRegisters_reads : (resetRegisters s).reads = s.reads := rfl
@[simp] theorem resetRegisters_draws : (resetRegisters s).draws = s.draws := rfl
@[simp] theorem resetRegisters_epoch : (resetRegisters s).epoch = s.epoch := rfl
@[simp] theorem resetRegisters_phases : (resetRegisters s).phases = [] := rfl

/-! ### Operands as naturals and bytes -/

@[simp] theorem writeBytes_inputLen (sp : Space) (start : Nat) (bs : List Byte) : (writeBytes sp start bs s).inputLen = s.inputLen := by
  simp [State.inputLen]
@[simp] theorem writeBytes_capacity (sp : Space) (start : Nat) (bs : List Byte) : (writeBytes sp start bs s).capacity = s.capacity := by
  simp [State.capacity]
@[simp] theorem writeBytes_prefixByte (sp : Space) (start : Nat) (bs : List Byte) : (writeBytes sp start bs s).prefixByte = s.prefixByte := by
  simp [State.prefixByte]
@[simp] theorem writeBytes_lengthOutOfRange (sp : Space) (start : Nat) (bs : List Byte) : (writeBytes sp start bs s).lengthOutOfRange = s.lengthOutOfRange := by
  cases sp <;> rfl

@[simp] theorem scratch_inputLen (start stop : Nat) : (scratch start stop s).inputLen = s.inputLen := by
  simp [State.inputLen]
@[simp] theorem scratch_capacity (start stop : Nat) : (scratch start stop s).capacity = s.capacity := by
  simp [State.capacity]
@[simp] theorem scratch_prefixByte (start stop : Nat) : (scratch start stop s).prefixByte = s.prefixByte := by
  simp [State.prefixByte]
@[simp] theorem scratch_lengthOutOfRange (start stop : Nat) : (scratch start stop s).lengthOutOfRange = s.lengthOutOfRange := rfl
@[simp] theorem scratch_readByte_src (start stop : Nat) (i : Nat) :
    readByte .src i (scratch start stop s) = readByte .src i s := by
  simp [readByte, State.memory]
@[simp] theorem scratch_srcRange (start stop : Nat) (i count : Nat) :
    srcRange i count (scratch start stop s) = srcRange i count s := by
  simp [srcRange]

@[simp] theorem beginCommand_inputLen : (beginCommand s).inputLen = s.inputLen := by
  simp [State.inputLen]
@[simp] theorem beginCommand_capacity : (beginCommand s).capacity = s.capacity := by
  simp [State.capacity]
@[simp] theorem beginCommand_prefixByte : (beginCommand s).prefixByte = s.prefixByte := by
  simp [State.prefixByte]
@[simp] theorem beginCommand_lengthOutOfRange : (beginCommand s).lengthOutOfRange = s.lengthOutOfRange := rfl
@[simp] theorem beginCommand_readByte_src (i : Nat) :
    readByte .src i (beginCommand s) = readByte .src i s := by
  simp [readByte, State.memory]
@[simp] theorem beginCommand_srcRange (i count : Nat) :
    srcRange i count (beginCommand s) = srcRange i count s := by
  simp [srcRange]

@[simp] theorem issue_inputLen (b : Byte) : (issue b s).inputLen = s.inputLen := by
  simp [State.inputLen]
@[simp] theorem issue_capacity (b : Byte) : (issue b s).capacity = s.capacity := by
  simp [State.capacity]
@[simp] theorem issue_prefixByte (b : Byte) : (issue b s).prefixByte = s.prefixByte := by
  simp [State.prefixByte]
@[simp] theorem issue_lengthOutOfRange (b : Byte) : (issue b s).lengthOutOfRange = s.lengthOutOfRange := rfl
@[simp] theorem issue_readByte_src (b : Byte) (i : Nat) :
    readByte .src i (issue b s) = readByte .src i s := by
  simp [readByte, State.memory]
@[simp] theorem issue_srcRange (b : Byte) (i count : Nat) :
    srcRange i count (issue b s) = srcRange i count s := by
  simp [srcRange]

@[simp] theorem goThrough_inputLen (ps : List Phase) : (goThrough ps s).inputLen = s.inputLen := by
  simp [State.inputLen]
@[simp] theorem goThrough_capacity (ps : List Phase) : (goThrough ps s).capacity = s.capacity := by
  simp [State.capacity]
@[simp] theorem goThrough_prefixByte (ps : List Phase) : (goThrough ps s).prefixByte = s.prefixByte := by
  simp [State.prefixByte]
@[simp] theorem goThrough_lengthOutOfRange (ps : List Phase) : (goThrough ps s).lengthOutOfRange = s.lengthOutOfRange := rfl
@[simp] theorem goThrough_readByte_src (ps : List Phase) (i : Nat) :
    readByte .src i (goThrough ps s) = readByte .src i s := by
  simp [readByte, State.memory]
@[simp] theorem goThrough_srcRange (ps : List Phase) (i count : Nat) :
    srcRange i count (goThrough ps s) = srcRange i count s := by
  simp [srcRange]

@[simp] theorem setVer_inputLen (v : BitVec 8) : (setVer v s).inputLen = s.inputLen := by
  simp [State.inputLen]
@[simp] theorem setVer_capacity (v : BitVec 8) : (setVer v s).capacity = s.capacity := by
  simp [State.capacity]
@[simp] theorem setVer_prefixByte (v : BitVec 8) : (setVer v s).prefixByte = s.prefixByte := by
  simp [State.prefixByte]
@[simp] theorem setVer_lengthOutOfRange (v : BitVec 8) : (setVer v s).lengthOutOfRange = s.lengthOutOfRange := rfl
@[simp] theorem setVer_readByte_src (v : BitVec 8) (i : Nat) :
    readByte .src i (setVer v s) = readByte .src i s := by
  simp [readByte, State.memory]
@[simp] theorem setVer_srcRange (v : BitVec 8) (i count : Nat) :
    srcRange i count (setVer v s) = srcRange i count s := by
  simp [srcRange]

@[simp] theorem setChk_inputLen (q : Quad) : (setChk q s).inputLen = s.inputLen := by
  simp [State.inputLen]
@[simp] theorem setChk_capacity (q : Quad) : (setChk q s).capacity = s.capacity := by
  simp [State.capacity]
@[simp] theorem setChk_prefixByte (q : Quad) : (setChk q s).prefixByte = s.prefixByte := by
  simp [State.prefixByte]
@[simp] theorem setChk_lengthOutOfRange (q : Quad) : (setChk q s).lengthOutOfRange = s.lengthOutOfRange := rfl
@[simp] theorem setChk_readByte_src (q : Quad) (i : Nat) :
    readByte .src i (setChk q s) = readByte .src i s := by
  simp [readByte, State.memory]
@[simp] theorem setChk_srcRange (q : Quad) (i count : Nat) :
    srcRange i count (setChk q s) = srcRange i count s := by
  simp [srcRange]

@[simp] theorem engineRun_load_inputLen (r : EngineRun) (base off : BitVec 2) : (r.load base off s).inputLen = s.inputLen := by
  simp [State.inputLen]
@[simp] theorem engineRun_load_capacity (r : EngineRun) (base off : BitVec 2) : (r.load base off s).capacity = s.capacity := by
  simp [State.capacity]
@[simp] theorem engineRun_load_prefixByte (r : EngineRun) (base off : BitVec 2) : (r.load base off s).prefixByte = s.prefixByte := by
  simp [State.prefixByte]
@[simp] theorem engineRun_load_lengthOutOfRange (r : EngineRun) (base off : BitVec 2) : (r.load base off s).lengthOutOfRange = s.lengthOutOfRange := rfl
@[simp] theorem engineRun_load_readByte_src (r : EngineRun) (base off : BitVec 2) (i : Nat) :
    readByte .src i (r.load base off s) = readByte .src i s := by
  simp [readByte, State.memory]
@[simp] theorem engineRun_load_srcRange (r : EngineRun) (base off : BitVec 2) (i count : Nat) :
    srcRange i count (r.load base off s) = srcRange i count s := by
  simp [srcRange]

@[simp] theorem badSymbol_load_inputLen (b : BadSymbol) (n : Nat) (off : BitVec 2) : (b.load n off s).inputLen = s.inputLen := by
  simp [State.inputLen]
@[simp] theorem badSymbol_load_capacity (b : BadSymbol) (n : Nat) (off : BitVec 2) : (b.load n off s).capacity = s.capacity := by
  simp [State.capacity]
@[simp] theorem badSymbol_load_prefixByte (b : BadSymbol) (n : Nat) (off : BitVec 2) : (b.load n off s).prefixByte = s.prefixByte := by
  simp [State.prefixByte]
@[simp] theorem badSymbol_load_lengthOutOfRange (b : BadSymbol) (n : Nat) (off : BitVec 2) : (b.load n off s).lengthOutOfRange = s.lengthOutOfRange := rfl
@[simp] theorem badSymbol_load_readByte_src (b : BadSymbol) (n : Nat) (off : BitVec 2) (i : Nat) :
    readByte .src i (b.load n off s) = readByte .src i s := by
  simp [readByte, State.memory]
@[simp] theorem badSymbol_load_srcRange (b : BadSymbol) (n : Nat) (off : BitVec 2) (i count : Nat) :
    srcRange i count (b.load n off s) = srcRange i count s := by
  simp [srcRange]

@[simp] theorem finishWith_inputLen (len : Nat) (v : BitVec 5) : (finishWith len v s).inputLen = s.inputLen := by
  simp [State.inputLen]
@[simp] theorem finishWith_capacity (len : Nat) (v : BitVec 5) : (finishWith len v s).capacity = s.capacity := by
  simp [State.capacity]
@[simp] theorem finishWith_prefixByte (len : Nat) (v : BitVec 5) : (finishWith len v s).prefixByte = s.prefixByte := by
  simp [State.prefixByte]
@[simp] theorem finishWith_lengthOutOfRange (len : Nat) (v : BitVec 5) : (finishWith len v s).lengthOutOfRange = s.lengthOutOfRange := rfl
@[simp] theorem finishWith_readByte_src (len : Nat) (v : BitVec 5) (i : Nat) :
    readByte .src i (finishWith len v s) = readByte .src i s := by
  simp [readByte, State.memory]
@[simp] theorem finishWith_srcRange (len : Nat) (v : BitVec 5) (i count : Nat) :
    srcRange i count (finishWith len v s) = srcRange i count s := by
  simp [srcRange]

@[simp] theorem succeed_inputLen (result : List Byte) (v : BitVec 5) : (succeed result v s).inputLen = s.inputLen := by
  simp [State.inputLen]
@[simp] theorem succeed_capacity (result : List Byte) (v : BitVec 5) : (succeed result v s).capacity = s.capacity := by
  simp [State.capacity]
@[simp] theorem succeed_prefixByte (result : List Byte) (v : BitVec 5) : (succeed result v s).prefixByte = s.prefixByte := by
  simp [State.prefixByte]
@[simp] theorem succeed_lengthOutOfRange (result : List Byte) (v : BitVec 5) : (succeed result v s).lengthOutOfRange = s.lengthOutOfRange := rfl
@[simp] theorem succeed_readByte_src (result : List Byte) (v : BitVec 5) (i : Nat) :
    readByte .src i (succeed result v s) = readByte .src i s := by
  simp [readByte, State.memory]
@[simp] theorem succeed_srcRange (result : List Byte) (v : BitVec 5) (i count : Nat) :
    srcRange i count (succeed result v s) = srcRange i count s := by
  simp [srcRange]

@[simp] theorem dstAfterError_inputLen (e : CommandError) : (dstAfterError e s).inputLen = s.inputLen := by
  simp [State.inputLen]
@[simp] theorem dstAfterError_capacity (e : CommandError) : (dstAfterError e s).capacity = s.capacity := by
  simp [State.capacity]
@[simp] theorem dstAfterError_prefixByte (e : CommandError) : (dstAfterError e s).prefixByte = s.prefixByte := by
  simp [State.prefixByte]
@[simp] theorem dstAfterError_lengthOutOfRange (e : CommandError) : (dstAfterError e s).lengthOutOfRange = s.lengthOutOfRange := by
  unfold dstAfterError; split <;> rfl
@[simp] theorem dstAfterError_readByte_src (e : CommandError) (i : Nat) :
    readByte .src i (dstAfterError e s) = readByte .src i s := by
  simp [readByte, State.memory]
@[simp] theorem dstAfterError_srcRange (e : CommandError) (i count : Nat) :
    srcRange i count (dstAfterError e s) = srcRange i count s := by
  simp [srcRange]

@[simp] theorem raise_inputLen (e : CommandError) : (raise e s).inputLen = s.inputLen := by
  simp [State.inputLen]
@[simp] theorem raise_capacity (e : CommandError) : (raise e s).capacity = s.capacity := by
  simp [State.capacity]
@[simp] theorem raise_prefixByte (e : CommandError) : (raise e s).prefixByte = s.prefixByte := by
  simp [State.prefixByte]
@[simp] theorem raise_lengthOutOfRange (e : CommandError) : (raise e s).lengthOutOfRange = s.lengthOutOfRange := 
  dstAfterError_lengthOutOfRange s e
@[simp] theorem raise_readByte_src (e : CommandError) (i : Nat) :
    readByte .src i (raise e s) = readByte .src i s := by
  simp [readByte, State.memory]
@[simp] theorem raise_srcRange (e : CommandError) (i count : Nat) :
    srcRange i count (raise e s) = srcRange i count s := by
  simp [srcRange]

@[simp] theorem drawn_inputLen : (drawn s).inputLen = s.inputLen := by
  simp [State.inputLen]
@[simp] theorem drawn_capacity : (drawn s).capacity = s.capacity := by
  simp [State.capacity]
@[simp] theorem drawn_prefixByte : (drawn s).prefixByte = s.prefixByte := by
  simp [State.prefixByte]
@[simp] theorem drawn_lengthOutOfRange : (drawn s).lengthOutOfRange = s.lengthOutOfRange := rfl
@[simp] theorem drawn_readByte_src (i : Nat) :
    readByte .src i (drawn s) = readByte .src i s := by
  simp [readByte, State.memory]
@[simp] theorem drawn_srcRange (i count : Nat) :
    srcRange i count (drawn s) = srcRange i count s := by
  simp [srcRange]

@[simp] theorem deliver_inputLen (v : Word64) : (deliver v s).inputLen = s.inputLen := by
  simp [State.inputLen]
@[simp] theorem deliver_capacity (v : Word64) : (deliver v s).capacity = s.capacity := by
  simp [State.capacity]
@[simp] theorem deliver_prefixByte (v : Word64) : (deliver v s).prefixByte = s.prefixByte := by
  simp [State.prefixByte]
@[simp] theorem deliver_lengthOutOfRange (v : Word64) : (deliver v s).lengthOutOfRange = s.lengthOutOfRange := rfl
@[simp] theorem deliver_readByte_src (v : Word64) (i : Nat) :
    readByte .src i (deliver v s) = readByte .src i s := by
  simp [readByte, State.memory]
@[simp] theorem deliver_srcRange (v : Word64) (i count : Nat) :
    srcRange i count (deliver v s) = srcRange i count s := by
  simp [srcRange]

end Sys2Proof.Machine
end

