-- ==== Sys2Proof/Laws/Commands.lean ====
section
/-! SUPPORT. What the shared operations of the commands do, said once: the start of a command and its working-register writes keep
operands and DST, `raise` leaves a failed command, `succeed` a successful one. -/

namespace Sys2Proof.Machine

/-- A command that began in `s` and has so far written working registers alone. -/
structure UnderWay (s t : State) : Prop where
  kept : OperandsKept s t
  dst  : t.dst = s.dst
  err  : t.err = ErrorRecord.zero

theorem underWay_beginCommand (s : State) : UnderWay s (beginCommand s) :=
  ⟨⟨rfl, rfl, rfl, rfl, rfl, rfl, rfl, rfl, rfl, rfl⟩, rfl, rfl⟩

theorem UnderWay.setVer {s t : State} (h : UnderWay s t) (v : BitVec 8) : UnderWay s (setVer v t) :=
  ⟨⟨h.kept.cmd, h.kept.srcLen, h.kept.dstCap, h.kept.version, h.kept.prefixReg, h.kept.src, h.kept.params, h.kept.script,
    h.kept.reads, h.kept.epoch⟩, h.dst, h.err⟩

theorem UnderWay.setChk {s t : State} (h : UnderWay s t) (q : Quad) : UnderWay s (setChk q t) :=
  ⟨⟨h.kept.cmd, h.kept.srcLen, h.kept.dstCap, h.kept.version, h.kept.prefixReg, h.kept.src, h.kept.params, h.kept.script,
    h.kept.reads, h.kept.epoch⟩, h.dst, h.err⟩

theorem UnderWay.load {s t : State} (h : UnderWay s t) (r : EngineRun) (base off : BitVec 2) :
    UnderWay s (r.load base off t) :=
  ⟨⟨h.kept.cmd, h.kept.srcLen, h.kept.dstCap, h.kept.version, h.kept.prefixReg, h.kept.src, h.kept.params, h.kept.script,
    h.kept.reads, h.kept.epoch⟩, h.dst, h.err⟩

theorem UnderWay.loadBad {s t : State} (h : UnderWay s t) (b : BadSymbol) (n : Nat) (off : BitVec 2) :
    UnderWay s (b.load n off t) :=
  ⟨⟨h.kept.cmd, h.kept.srcLen, h.kept.dstCap, h.kept.version, h.kept.prefixReg, h.kept.src, h.kept.params, h.kept.script,
    h.kept.reads, h.kept.epoch⟩, h.dst, h.err⟩

theorem UnderWay.goThrough {s t : State} (h : UnderWay s t) (ps : List Phase) : UnderWay s (goThrough ps t) :=
  ⟨⟨h.kept.cmd, h.kept.srcLen, h.kept.dstCap, h.kept.version, h.kept.prefixReg, h.kept.src, h.kept.params, h.kept.script,
    h.kept.reads, h.kept.epoch⟩, h.dst, h.err⟩

theorem UnderWay.capacity {s t : State} (h : UnderWay s t) : t.capacity = s.capacity := by
  rw [State.capacity, State.capacity, h.kept.dstCap]

theorem UnderWay.inputLen {s t : State} (h : UnderWay s t) : t.inputLen = s.inputLen := by
  rw [State.inputLen, State.inputLen, h.kept.srcLen]

theorem UnderWay.prefixByte {s t : State} (h : UnderWay s t) : t.prefixByte = s.prefixByte := by
  rw [State.prefixByte, State.prefixByte, h.kept.prefixReg]

theorem UnderWay.readSrc {s t : State} (h : UnderWay s t) (i : Nat) : readByte .src i t = readByte .src i s := by
  simp only [readByte, State.memory, h.kept.src, h.kept.epoch]

theorem UnderWay.srcRange {s t : State} (h : UnderWay s t) (i n : Nat) :
    Machine.srcRange i n t = Machine.srcRange i n s := by
  simp only [Machine.srcRange, h.readSrc]

theorem UnderWay.readDst {s t : State} (h : UnderWay s t) (i : Nat) : readByte .dst i t = readByte .dst i s := by
  simp only [readByte, State.memory, h.dst, h.kept.epoch]

/-- Every failure has a code other than 0, so its completion sets ERR (R201, R44). -/
theorem errKind_record_ne_zero (e : CommandError) : e.record.errKind ≠ 0 := by
  rcases e with _ | _ | ⟨_, _ | _⟩ | _ | _ | _ | _ <;> simp [CommandError.record, ErrorRecord.zero]

theorem completionStatus_record (e : CommandError) : completionStatus e.record.errKind = 0x06 :=
  if_neg (errKind_record_ne_zero e)

theorem readByte_dst_congr {s t : State} (hd : t.dst = s.dst) (he : t.epoch = s.epoch) (i : Nat) :
    readByte .dst i t = readByte .dst i s := by
  simp only [readByte, State.memory, hd, he]

/-- `raise` is the error completion of R209. -/
theorem UnderWay.raise {s t : State} (h : UnderWay s t) (e : CommandError) : Failed s (raise e t) e where
  status := by simp [completionStatus_record]
  resultLen := rfl
  resultVersion := rfl
  err := rfl
  phase := rfl
  kept := by
    constructor <;> simp [h.kept.cmd, h.kept.srcLen, h.kept.dstCap, h.kept.version, h.kept.prefixReg, h.kept.src,
      h.kept.params, h.kept.script, h.kept.reads, h.kept.epoch]
  dstWhole := fun he => by simp [dstAfterError, he, h.dst]
  dstKept := fun i hi => by
    refine (readByte_dst_congr (s := dstAfterError e t) rfl rfl i).trans ?_
    rw [dstAfterError]
    split
    · exact h.readDst i
    · rw [readByte_scratch_of_out (Or.inr (by rw [h.capacity]; exact hi)), h.readDst]

/-- `succeed` is the success of a buffer command (R67, R200), for a result within the capacity. -/
theorem UnderWay.succeed {s t : State} (h : UnderWay s t) {result : List Byte} (hr : result.length ≤ s.capacity)
    (v : BitVec 5) : Succeeded s (succeed result v t) result v where
  status := by simp [h.err, completionStatus, ErrorRecord.zero]
  resultLen := by
    have : s.capacity < 2 ^ 32 := s.dstCap.isLt
    simp only [succeed_resultLen, BitVec.toNat_ofNat]
    exact Nat.mod_eq_of_lt (by omega)
  resultVersion := rfl
  err := by simp [h.err]
  phase := rfl
  kept := by
    constructor <;> simp [h.kept.cmd, h.kept.srcLen, h.kept.dstCap, h.kept.version, h.kept.prefixReg, h.kept.src,
      h.kept.params, h.kept.script, h.kept.reads, h.kept.epoch]
  dstResult := fun i hi => by
    refine (readByte_dst_congr (s := scratch result.length t.capacity (writeBytes .dst 0 result t)) rfl rfl i).trans ?_
    rw [readByte_scratch_of_out (Or.inl hi), readByte_writeBytes_dst, dif_pos (by omega)]
    rfl
  dstKept := fun i hi => by
    refine (readByte_dst_congr (s := scratch result.length t.capacity (writeBytes .dst 0 result t)) rfl rfl i).trans ?_
    rw [readByte_scratch_of_out (Or.inr (by rw [h.capacity]; exact hi)), readByte_writeBytes_dst, dif_neg (by omega),
      h.readDst]

end Sys2Proof.Machine
end

