-- ==== Sys2Proof/Laws/Digits.lean ====
section
/-! SUPPORT. Big-endian numerals (R63): the value of a digit sequence, and that stripping leading zero digits leaves the
numeral. -/

namespace Sys2Proof.Machine

theorem bigEndian_eq_ofDigits (base : Nat) (ds : List Nat) : bigEndian base ds = Nat.ofDigits base ds.reverse := by
  unfold bigEndian
  induction ds using List.reverseRecOn with
  | nil => rfl
  | append_singleton ds d ih => simp [List.foldl_append, ih, Nat.ofDigits_cons]; ring

@[simp] theorem bigEndian_nil (base : Nat) : bigEndian base [] = 0 := rfl

theorem bigEndian_cons (base d : Nat) (ds : List Nat) :
    bigEndian base (d :: ds) = d * base ^ ds.length + bigEndian base ds := by
  simp [bigEndian_eq_ofDigits, Nat.ofDigits_append]; ring

theorem bigEndian_dropWhile_zero (base : Nat) (ds : List Nat) :
    bigEndian base (ds.dropWhile (· == 0)) = bigEndian base ds := by
  induction ds with
  | nil => rfl
  | cons d ds ih =>
    rw [List.dropWhile_cons]
    split
    · rename_i h
      simp at h
      simp [ih, bigEndian_cons, h]
    · rfl

/-- A digit sequence without its leading zeros is the numeral of its value. -/
theorem dropWhile_zero_eq_numeral {base : Nat} (hb : 1 < base) {ds : List Nat} (h : ∀ d ∈ ds, d < base) :
    ds.dropWhile (· == 0) = numeral base (bigEndian base ds) := by
  rw [numeral, ← bigEndian_dropWhile_zero, bigEndian_eq_ofDigits, Nat.digits_ofDigits base hb]
  · simp
  · intro d hd
    exact h d ((List.dropWhile_sublist _).mem (by simpa using hd))
  · intro hne
    rw [List.getLast_reverse]
    have := List.head_dropWhile_not (· == 0) (l := ds) (by simpa using hne)
    simpa using this

theorem numeral_lt {base n : Nat} (hb : 1 < base) {d : Nat} (h : d ∈ numeral base n) : d < base :=
  Nat.digits_lt_base hb (by simpa [numeral] using h)

theorem bigEndian_numeral (base n : Nat) : bigEndian base (numeral base n) = n := by
  simp [numeral, bigEndian_eq_ofDigits, Nat.ofDigits_digits]

/-- A numeral has at most as many digits as the exponent of a power above its number. -/
theorem numeral_length_le {base n k : Nat} (hb : 1 < base) (h : n < base ^ k) : (numeral base n).length ≤ k := by
  simpa [numeral] using (Nat.digits_length_le_iff hb n).2 h

theorem bigEndian_lt {base : Nat} (hb : 1 < base) {ds : List Nat} (h : ∀ d ∈ ds, d < base) :
    bigEndian base ds < base ^ ds.length := by
  rw [bigEndian_eq_ofDigits, ← List.length_reverse]
  exact Nat.ofDigits_lt_base_pow_length hb (by simpa using h)

end Sys2Proof.Machine
end

