-- ==== Sys2Proof/Laws/Engine.lean ====
section
/-! SUPPORT. The carry chain of both engines: what one absorb and one emission do to CARRY, and what a whole chain has emitted. -/

namespace Sys2Proof.Machine

/-! ### Tables -/

/-- DLUT gives back the index of an ALPHABET symbol (R85). -/
theorem dlut_symbol (k : BitVec 5) : dlut ((symbol k).setWidth 7) = some k := by
  revert k; decide

theorem symbolValue_symbol (k : BitVec 5) : symbolValue (symbol k) = some k := by
  revert k; decide

theorem symbol_eq_zeroChar (k : BitVec 5) : symbol k = zeroChar ↔ k = 0 := by
  revert k; decide

theorem symbol_ascii (k : BitVec 5) : (symbol k).getLsbD 7 = false := by
  revert k; decide

theorem getLsbD_seven (c : Byte) : c.getLsbD 7 = decide (128 ≤ c.toNat) := by
  revert c; decide

/-! ### The carry -/

/-- A byte or symbol absorbed above the held bits adds to the carry (R63). -/
theorem absorb_carry {c : Chain} {v : BitVec 12} {width : Nat} (hc : c.carry.toNat < 2 ^ c.nbits)
    (hv : v.toNat < 2 ^ width) (hw : c.nbits + width ≤ 12) :
    (c.absorb v width).carry.toNat = c.carry.toNat + v.toNat * 2 ^ c.nbits := by
  have h12 : v.toNat * 2 ^ c.nbits < 2 ^ 12 :=
    calc v.toNat * 2 ^ c.nbits < 2 ^ width * 2 ^ c.nbits := Nat.mul_lt_mul_of_pos_right hv (by positivity)
      _ = 2 ^ (c.nbits + width) := by rw [← Nat.pow_add, Nat.add_comm]
      _ ≤ 2 ^ 12 := Nat.pow_le_pow_right (by omega) hw
  rw [Chain.absorb, BitVec.toNat_or, BitVec.toNat_shiftLeft, Nat.shiftLeft_eq, Nat.mod_eq_of_lt h12, Nat.lor_comm,
    Nat.mul_comm, ← Nat.two_pow_add_eq_or_of_lt hc]
  omega

theorem absorb_carry_lt {c : Chain} {v : BitVec 12} {width : Nat} (hc : c.carry.toNat < 2 ^ c.nbits)
    (hv : v.toNat < 2 ^ width) (hw : c.nbits + width ≤ 12) :
    (c.absorb v width).carry.toNat < 2 ^ (c.nbits + width) := by
  rw [absorb_carry hc hv hw, Nat.pow_add]
  calc c.carry.toNat + v.toNat * 2 ^ c.nbits < 2 ^ c.nbits + v.toNat * 2 ^ c.nbits := by omega
    _ = (v.toNat + 1) * 2 ^ c.nbits := by ring
    _ ≤ 2 ^ width * 2 ^ c.nbits := Nat.mul_le_mul_right _ hv
    _ = 2 ^ c.nbits * 2 ^ width := Nat.mul_comm _ _

theorem emit_carry (c : Chain) (width : Nat) (f : BitVec 12 → Byte) :
    (c.emit width f).carry.toNat = c.carry.toNat / 2 ^ width := by
  simp [Chain.emit, Nat.shiftRight_eq_div_pow]

/-! ### A chain as a number -/

/-- The chain has emitted these digits of `width` bits (newest first, so most significant first) by `toByte`, holds fewer than
`width` bits, and its carry above the digits denotes `value`, of `bits` bits in all. -/
structure ChainHolds {width : Nat} (toByte : BitVec width → Byte) (value bits : Nat) (c : Chain)
    (ds : List (BitVec width)) : Prop where
  emitted : c.emitted = ds.map toByte
  nbits   : c.nbits < width
  carry   : c.carry.toNat < 2 ^ c.nbits
  bits    : width * ds.length + c.nbits = bits
  value   : c.carry.toNat * (2 ^ width) ^ ds.length + bigEndian (2 ^ width) (ds.map BitVec.toNat) = value

/-- The same without the bound on NBITS: the chain between an absorb and the end of its emissions. -/
structure ChainCarries {width : Nat} (toByte : BitVec width → Byte) (value bits : Nat) (c : Chain)
    (ds : List (BitVec width)) : Prop where
  emitted : c.emitted = ds.map toByte
  carry   : c.carry.toNat < 2 ^ c.nbits
  bits    : width * ds.length + c.nbits = bits
  value   : c.carry.toNat * (2 ^ width) ^ ds.length + bigEndian (2 ^ width) (ds.map BitVec.toNat) = value

theorem chainCarries_emit {width : Nat} {toByte : BitVec width → Byte} {f : BitVec 12 → Byte}
    (hf : ∀ x : BitVec 12, f x = toByte (x.setWidth width)) {value bits : Nat} {c : Chain} {ds : List (BitVec width)}
    (h : ChainCarries toByte value bits c ds) (hn : width ≤ c.nbits) :
    ChainCarries toByte value bits (c.emit width f) (c.carry.setWidth width :: ds) where
  emitted := by simp [Chain.emit, h.emitted, hf]
  carry := by
    rw [emit_carry]
    refine Nat.div_lt_of_lt_mul ?_
    rw [← Nat.pow_add]
    show _ < 2 ^ (width + (c.nbits - width))
    rw [Nat.add_sub_cancel' hn]
    exact h.carry
  bits := by
    have := h.bits
    simp only [Chain.emit, List.length_cons, Nat.mul_add]
    omega
  value := by
    rw [emit_carry, List.map_cons, bigEndian_cons, List.length_map, List.length_cons, BitVec.toNat_setWidth,
      ← h.value, ← Nat.add_assoc]
    congr 1
    have := Nat.div_add_mod c.carry.toNat (2 ^ width)
    calc _ = (2 ^ width * (c.carry.toNat / 2 ^ width) + c.carry.toNat % 2 ^ width) * (2 ^ width) ^ ds.length := by
          rw [Nat.pow_succ]; ring
      _ = _ := by rw [this]

theorem chainCarries_drain {width : Nat} {toByte : BitVec width → Byte} {f : BitVec 12 → Byte}
    (hf : ∀ x : BitVec 12, f x = toByte (x.setWidth width)) (hw : 0 < width) {value bits : Nat} (fuel : Nat) :
    ∀ {c : Chain} {ds : List (BitVec width)}, ChainCarries toByte value bits c ds → c.nbits ≤ fuel →
      ∃ ds', ChainHolds toByte value bits (Chain.drain width f fuel c) ds' := by
  induction fuel with
  | zero =>
    intro c ds h hn
    exact ⟨ds, h.emitted, show c.nbits < width by omega, h.carry, h.bits, h.value⟩
  | succ fuel ih =>
    intro c ds h hn
    rw [Chain.drain]
    split
    · rename_i hle
      refine ih (chainCarries_emit hf h hle) ?_
      show c.nbits - width ≤ fuel
      omega
    · exact ⟨ds, h.emitted, by omega, h.carry, h.bits, h.value⟩

theorem chainCarries_absorb {width : Nat} {toByte : BitVec width → Byte} {value bits : Nat} {c : Chain}
    {ds : List (BitVec width)} (h : ChainHolds toByte value bits c ds) {v : BitVec 12} {size : Nat}
    (hv : v.toNat < 2 ^ size) (hsize : width + size ≤ 13) :
    ChainCarries toByte (v.toNat * 2 ^ bits + value) (bits + size) (c.absorb v size) ds := by
  have hn : c.nbits + size ≤ 12 := by have := h.nbits; omega
  refine ⟨h.emitted, absorb_carry_lt h.carry hv hn, ?_, ?_⟩
  · have := h.bits
    show width * ds.length + (c.nbits + size) = bits + size
    omega
  · rw [absorb_carry h.carry hv hn, ← h.value, ← h.bits, Nat.pow_add, ← Nat.pow_mul]
    ring

theorem chainHolds_start {width : Nat} (toByte : BitVec width → Byte) (hw : 0 < width) :
    ChainHolds toByte 0 0 Chain.start [] :=
  ⟨rfl, hw, by simp [Chain.start], by simp [Chain.start], by simp [Chain.start]⟩

/-! ### The two engines -/

theorem lowSymbol_eq (x : BitVec 12) : lowSymbol x = symbol (x.setWidth 5) := rfl

theorem lowByte_eq (x : BitVec 12) : lowByte x = id (x.setWidth 8) := rfl

theorem bytesValue_cons (b : Byte) (bs : List Byte) :
    bytesValue (b :: bs) = b.toNat * 2 ^ (8 * bs.length) + bytesValue bs := by
  rw [bytesValue, List.map_cons, bigEndian_cons, List.length_map, Nat.pow_mul]
  rfl

theorem symbolsValue_cons (k : BitVec 5) (ks : List (BitVec 5)) :
    symbolsValue (k :: ks) = k.toNat * 2 ^ (5 * ks.length) + symbolsValue ks := by
  rw [symbolsValue, List.map_cons, bigEndian_cons, List.length_map, Nat.pow_mul]
  rfl

/-- What the carry chain of the encode engine holds after the whole input (R122). -/
theorem packAll_holds (input : List Byte) :
    ∃ ds, ChainHolds symbol (bytesValue input) (8 * input.length) (packAll input) ds := by
  induction input with
  | nil => exact ⟨[], chainHolds_start symbol (by omega)⟩
  | cons b bs ih =>
    obtain ⟨ds, h⟩ := ih
    have hb : (b.setWidth 12).toNat < 2 ^ 8 := by
      rw [BitVec.toNat_setWidth_of_le (by omega)]
      exact b.isLt
    have h' := chainCarries_absorb h hb (by omega)
    rw [BitVec.toNat_setWidth_of_le (by omega), ← bytesValue_cons] at h'
    exact chainCarries_drain lowSymbol_eq (by omega) _ h' (Nat.le_refl _)

/-- What the carry chain of the decode engine holds after an input of valid symbols (R143). -/
theorem unpackAll_holds (lz : Nat) (ks : List (BitVec 5)) (i : Nat) (input : List Byte)
    (h : input.map (fun c => dlut (c.setWidth 7)) = ks.map some) :
    ∃ c ds, unpackAll lz i input = .ok c ∧
      ChainHolds (id : Byte → Byte) (symbolsValue ks) (5 * input.length) c ds := by
  induction input generalizing ks i with
  | nil =>
    obtain rfl : ks = [] := by simpa using h.symm
    exact ⟨_, [], rfl, chainHolds_start id (by omega)⟩
  | cons c cs ih =>
    obtain _ | ⟨k, ks⟩ := ks
    · simp at h
    rw [List.map_cons, List.map_cons, List.cons.injEq] at h
    obtain ⟨chain, ds, hok, hold⟩ := ih ks (i + 1) h.2
    have hk : (k.setWidth 12).toNat < 2 ^ 5 := by
      rw [BitVec.toNat_setWidth_of_le (by omega)]
      exact k.isLt
    have hlen : cs.length = ks.length := by simpa using congrArg List.length h.2
    have h' := chainCarries_absorb hold hk (by omega)
    rw [BitVec.toNat_setWidth_of_le (by omega), hlen, ← symbolsValue_cons] at h'
    obtain ⟨ds', hd⟩ := chainCarries_drain lowByte_eq (by omega) _ h' (Nat.le_refl _)
    refine ⟨unpackSymbol k chain, ds', ?_, ?_⟩
    · rw [unpackAll, hok]
      simp only [h.1]
    · rw [List.length_cons, hlen]
      exact hd

/-- After a flush that leaves out at most a zero residual, what was emitted has the chain's value. -/
theorem chainHolds_flush_value {width : Nat} {toByte : BitVec width → Byte} {value bits : Nat} {c : Chain}
    {ds : List (BitVec width)} (h : ChainHolds toByte value bits c ds) :
    bigEndian (2 ^ width) ((c.carry.setWidth width :: ds).map BitVec.toNat) = value := by
  have hlt : c.carry.toNat < 2 ^ width :=
    lt_of_lt_of_le h.carry (Nat.pow_le_pow_right (by omega) (Nat.le_of_lt h.nbits))
  rw [List.map_cons, bigEndian_cons, List.length_map, BitVec.toNat_setWidth, Nat.mod_eq_of_lt hlt, h.value]

/-- The strip step on emitted symbols or bytes, where the stripped byte is exactly the digit 0. -/
theorem stripZeros_map {width : Nat} {toByte : BitVec width → Byte} {z : Byte} (hz : ∀ k, toByte k = z ↔ k = 0)
    (ds : List (BitVec width)) :
    stripZeros z (ds.map toByte) =
      ((ds.map BitVec.toNat).dropWhile (· == 0)).map fun d => toByte (BitVec.ofNat width d) := by
  induction ds with
  | nil => rfl
  | cons d ds ih =>
    simp only [stripZeros, List.map_cons, List.dropWhile_cons]
    by_cases hd : d = 0
    · subst hd
      have h0 : toByte 0#width = z := (hz 0).2 rfl
      simpa [h0, stripZeros] using ih
    · have h1 : toByte d ≠ z := fun h => hd ((hz d).1 h)
      have h2 : d.toNat ≠ 0 := fun h => hd (BitVec.eq_of_toNat_eq (by simpa using h))
      simp [h1, h2]

/-- What strip leaves of a sequence of digits is the numeral of its value (R124, R145). -/
theorem stripZeros_eq_numeral {width : Nat} {toByte : BitVec width → Byte} {z : Byte}
    (hz : ∀ k, toByte k = z ↔ k = 0) (hw : 0 < width) (ds : List (BitVec width)) :
    stripZeros z (ds.map toByte) =
      (numeral (2 ^ width) (bigEndian (2 ^ width) (ds.map BitVec.toNat))).map fun d => toByte (BitVec.ofNat width d) := by
  rw [stripZeros_map hz, dropWhile_zero_eq_numeral]
  · exact Nat.one_lt_two_pow (by omega)
  · intro d hd
    obtain ⟨k, -, rfl⟩ := List.mem_map.1 hd
    exact k.isLt

/-- Pad and the two reversals put the counted zeros in front (R125, R126). -/
theorem repack_eq (z : Byte) (lz : Nat) (emitted : List Byte) :
    repack z lz emitted = List.replicate lz z ++ stripZeros z emitted := by
  simp [repack, reverseInPlace, inDstOrder, padZeros]

end Sys2Proof.Machine
end

