-- ==== Sys2Proof/Laws/Runs.lean ====
section
/-! SUPPORT. What a run of each engine can do: the stripped sequence is a numeral, a decode run fails exactly at the reported
index, and the numbers are bounded by what follows the leading zeros. -/

namespace Sys2Proof.Machine

theorem id_eq_zero (k : Byte) : (id k : Byte) = 0 ↔ k = 0 := Iff.rfl

/-- The strip step after the encode engine's flush leaves the base-32 numeral (R123, R124). -/
theorem strip_flushSymbol (input : List Byte) :
    stripZeros zeroChar (flushSymbol (packAll input)).emitted =
      (numeral 32 (bytesValue input)).map fun d => symbol (BitVec.ofNat 5 d) := by
  obtain ⟨ds, h⟩ := packAll_holds input
  have hv := chainHolds_flush_value h
  have key := stripZeros_eq_numeral (toByte := symbol) symbol_eq_zeroChar (by omega) ((packAll input).carry.setWidth 5 :: ds)
  rw [hv] at key
  have hem : stripZeros zeroChar (flushSymbol (packAll input)).emitted =
      stripZeros zeroChar (((packAll input).carry.setWidth 5 :: ds).map symbol) := by
    rw [flushSymbol]
    split
    · simp [Chain.clear, h.emitted, lowSymbol]
    · rename_i hc
      have h0 : (packAll input).carry = 0 := by
        by_contra hne
        have : (packAll input).nbits = 0 := by
          by_contra hn
          exact hc ⟨by omega, hne⟩
        have hl := h.carry
        rw [this] at hl
        exact hne (BitVec.eq_of_toNat_eq (by simpa using hl))
      have hz : symbol ((packAll input).carry.setWidth 5) = zeroChar := by rw [h0]; rfl
      simp [Chain.clear, h.emitted, stripZeros, hz]
  rw [hem, key]
  rfl

/-- The strip step after the decode engine's flush leaves the base-256 numeral (R144, R145). -/
theorem strip_flushByte {c : Chain} {ds : List Byte} {value bits : Nat}
    (h : ChainHolds (id : Byte → Byte) value bits c ds) :
    stripZeros 0 (flushByte c).emitted = (numeral 256 value).map fun d => BitVec.ofNat 8 d := by
  have hv := chainHolds_flush_value h
  have key := stripZeros_eq_numeral (toByte := (id : Byte → Byte)) id_eq_zero (by omega) (c.carry.setWidth 8 :: ds)
  rw [hv] at key
  have hem : stripZeros 0 (flushByte c).emitted = stripZeros 0 ((c.carry.setWidth 8 :: ds).map id) := by
    rw [flushByte]
    split
    · simp [Chain.clear, h.emitted, lowByte]
    · rename_i hn
      have hl := h.carry
      have : c.nbits = 0 := by omega
      rw [this] at hl
      have h0 : c.carry = 0 := BitVec.eq_of_toNat_eq (by simpa using hl)
      simp [Chain.clear, h.emitted, stripZeros, h0]
  rw [hem, key]
  rfl

/-- The ASCII pass reports the lowest index of a byte >= 128 (R141). -/
theorem asciiPass_eq (i : Nat) (l : List Byte) :
    asciiPass i l = (firstNonAscii l).map fun j => (i + j, l.getD j 0) := by
  induction l generalizing i with
  | nil => rfl
  | cons c cs ih =>
    rw [asciiPass, firstNonAscii, List.findIdx?_cons, getLsbD_seven]
    by_cases h : 128 ≤ c.toNat
    · simp [h]
    · simp only [h, decide_false, Bool.false_eq_true, if_false]
      rw [ih, firstNonAscii, Option.map_map]
      congr 1
      funext j
      simp
      omega

theorem symbolValue_of_ascii {c : Byte} (h : c.toNat < 128) : symbolValue c = dlut (c.setWidth 7) := by
  rw [symbolValue, getLsbD_seven, if_neg (by simpa using h)]

theorem firstNonAscii_none {l : List Byte} : firstNonAscii l = none ↔ ∀ c ∈ l, c.toNat < 128 := by
  simp [firstNonAscii, List.findIdx?_eq_none_iff]

/-- The lookup pass reports the highest table-invalid index, or every symbol is valid (R143). -/
theorem unpackAll_bad (lz i : Nat) (l : List Byte) :
    match lastInvalid l with
    | some j => ∃ c, unpackAll lz i l = .bad { char := l.getD j 0, index := i + j, lz := lz, chain := c } ∧ j < l.length
    | none => ∀ c ∈ l, (dlut (c.setWidth 7)).isSome := by
  induction l generalizing i with
  | nil => simp [lastInvalid]
  | cons c cs ih =>
    have hl : lastInvalid (c :: cs) =
        ((lastInvalid cs).map (· + 1)).or (if (dlut (c.setWidth 7)).isNone then some 0 else none) := by
      simp only [lastInvalid, List.length_cons, List.range_succ_eq_map, List.filter_cons, List.getD_cons_zero,
        List.filter_map]
      have : ((fun i => (dlut (BitVec.setWidth 7 ((c :: cs).getD i 0))).isNone) ∘ Nat.succ) =
          fun i => (dlut (BitVec.setWidth 7 (cs.getD i 0))).isNone := by
        funext i; simp
      rw [this]
      split
      · simp [List.getLast?_cons, List.getLast?_map]
      · simp [List.getLast?_map]
    have ih' := ih (i + 1)
    rw [hl]
    cases hj : lastInvalid cs with
    | some j =>
      rw [hj] at ih'
      obtain ⟨ch, h1, h2⟩ := ih'
      simp only [Option.map_some, Option.some_or]
      refine ⟨ch, ?_, by simpa using h2⟩
      rw [unpackAll, h1]
      simp [Nat.add_assoc, Nat.add_comm 1]
    | none =>
      rw [hj] at ih'
      simp only [Option.map_none, Option.none_or]
      have hval : cs.map (fun c => dlut (c.setWidth 7)) = (cs.filterMap fun c => dlut (c.setWidth 7)).map some := by
        clear hl hj ih
        induction cs with
        | nil => rfl
        | cons d ds ih2 =>
          have hd := ih' d (by simp)
          obtain ⟨k, hk⟩ := Option.isSome_iff_exists.1 hd
          have := ih2 (fun e he => ih' e (by simp [he]))
          simp [hk, this]
      obtain ⟨ch, ds, hok, -⟩ := unpackAll_holds lz _ (i + 1) cs hval
      cases hd : dlut (c.setWidth 7) with
      | none =>
        simp only [Option.isNone_none, if_true]
        refine ⟨ch, ?_, by simp⟩
        rw [unpackAll, hok]
        simp [hd]
      | some k =>
        simp only [Option.isNone_some, Bool.false_eq_true, if_false]
        intro e he
        rcases List.mem_cons.1 he with rfl | he
        · simp [hd]
        · exact ih' e he

/-- A decode run fails at the index `badIndex` gives (R210). -/
theorem decodeRun_bad {l : List Byte} {j : Nat} (h : badIndex l = some j) :
    ∃ lz ch, decodeRun l = .bad { char := l.getD j 0, index := j, lz := lz, chain := ch } ∧ j < l.length := by
  rw [decodeRun, asciiPass_eq]
  cases hf : firstNonAscii l with
  | some i =>
    have : i = j := by simpa [badIndex, hf] using h
    subst this
    refine ⟨0, Chain.start, by simp, ?_⟩
    exact (List.findIdx?_eq_some_iff_findIdx_eq.1 hf).1
  | none =>
    have hj : lastInvalid l = some j := by simpa [badIndex, hf] using h
    have := unpackAll_bad (leadingCount zeroChar l) 0 l
    rw [hj] at this
    obtain ⟨ch, h1, h2⟩ := this
    exact ⟨leadingCount zeroChar l, ch, by simp [h1], h2⟩

/-- Without a reported index every byte is a valid symbol. -/
theorem all_valid {l : List Byte} (h : badIndex l = none) : ∀ c ∈ l, c.toNat < 128 ∧ ∃ k, dlut (c.setWidth 7) = some k := by
  have h1 : firstNonAscii l = none := by
    cases hf : firstNonAscii l <;> simp_all [badIndex]
  have h2 : lastInvalid l = none := by simpa [badIndex, h1] using h
  have := unpackAll_bad 0 0 l
  rw [h2] at this
  intro c hc
  exact ⟨firstNonAscii_none.1 h1 c hc, Option.isSome_iff_exists.1 (this c hc)⟩

/-- Without a reported index a decode run completes over a chain that holds the symbols' number (R140). -/
theorem decodeRun_ok {l : List Byte} (h : badIndex l = none) :
    ∃ ch ds, decodeRun l = .ok (finishRun 0 (leadingCount zeroChar l) l.length (flushByte ch)) ∧
      ChainHolds (id : Byte → Byte) (symbolsValue (l.filterMap symbolValue)) (5 * l.length) ch ds := by
  have hv := all_valid h
  have h1 : firstNonAscii l = none := firstNonAscii_none.2 fun c hc => (hv c hc).1
  have hval : l.map (fun c => dlut (c.setWidth 7)) = (l.filterMap symbolValue).map some := by
    clear h h1
    induction l with
    | nil => rfl
    | cons c cs ih =>
      obtain ⟨h1, k, hk⟩ := hv c (by simp)
      have := ih (fun e he => hv e (by simp [he]))
      simp [symbolValue_of_ascii h1, hk, this]
  obtain ⟨ch, ds, hok, hh⟩ := unpackAll_holds (leadingCount zeroChar l) _ 0 l hval
  refine ⟨ch, ds, ?_, hh⟩
  rw [decodeRun, asciiPass_eq, h1]
  simp [hok]

/-! ### Bounds on the numbers -/

theorem leadingCount_le (z : Byte) (l : List Byte) : leadingCount z l ≤ l.length := (List.takeWhile_sublist _).length_le

/-- The number of an input is bounded by the bytes after its leading zeros (R127). -/
theorem bytesValue_lt (input : List Byte) : bytesValue input < 2 ^ (8 * (input.length - leadingCount 0 input)) := by
  induction input with
  | nil => simp [bytesValue, leadingCount]
  | cons b bs ih =>
    by_cases hb : b = 0
    · subst hb
      have h1 : leadingCount 0 (0 :: bs) = leadingCount 0 bs + 1 := by simp [leadingCount]
      rw [bytesValue_cons, h1, List.length_cons, Nat.add_sub_add_right]
      simpa using ih
    · have h1 : leadingCount 0 (b :: bs) = 0 := by
        simp [leadingCount, show ¬b = 0#8 from hb]
      rw [h1]
      have := bigEndian_lt (base := 256) (by omega) (ds := (b :: bs).map BitVec.toNat) (by
        intro d hd
        obtain ⟨k, -, rfl⟩ := List.mem_map.1 hd
        exact k.isLt)
      rw [Nat.sub_zero, Nat.pow_mul]
      simpa [bytesValue] using this

/-- The number of a symbol string is bounded by the symbols after its leading zero-characters (R148). -/
theorem symbolsValue_lt (l : List Byte) (h : ∀ c ∈ l, ∃ k, symbolValue c = some k) :
    symbolsValue (l.filterMap symbolValue) < 2 ^ (5 * (l.length - leadingCount zeroChar l)) := by
  induction l with
  | nil => simp [symbolsValue, leadingCount]
  | cons c cs ih =>
    have ih := ih fun d hd => h d (by simp [hd])
    by_cases hc : c = zeroChar
    · subst hc
      have h1 : leadingCount zeroChar (zeroChar :: cs) = leadingCount zeroChar cs + 1 := by simp [leadingCount]
      have h0 : symbolValue zeroChar = some 0 := by decide
      rw [List.filterMap_cons_some h0, symbolsValue_cons, h1, List.length_cons, Nat.add_sub_add_right]
      simpa using ih
    · have h1 : leadingCount zeroChar (c :: cs) = 0 := by simp [leadingCount, hc]
      rw [h1]
      have := bigEndian_lt (base := 32) (by omega) (ds := ((c :: cs).filterMap symbolValue).map BitVec.toNat) (by
        intro d hd
        obtain ⟨k, -, rfl⟩ := List.mem_map.1 hd
        exact k.isLt)
      refine lt_of_lt_of_le this ?_
      rw [Nat.sub_zero, Nat.pow_mul]
      exact Nat.pow_le_pow_right (by omega) (by simpa using List.length_filterMap_le symbolValue (c :: cs))

end Sys2Proof.Machine
end

