-- ==== Sys2Proof/Laws/Completion.lean ====
section
/-! SUPPORT. Everything a command can do, said once: it ends in `raise`, in `succeed`, or in a register result, from a state in
which only working registers were written. -/

namespace Sys2Proof.Machine

/-- A chain of bytes that a symbol was absorbed into holds fewer than 8 bits after its emissions (R143). -/
theorem unpackSymbol_bounds (k : BitVec 5) {c : Chain} (hn : c.nbits < 8) (hc : c.carry.toNat < 2 ^ c.nbits) :
    (unpackSymbol k c).nbits < 8 ∧ (unpackSymbol k c).carry.toNat < 2 ^ (unpackSymbol k c).nbits := by
  have hk : (k.setWidth 12).toNat < 2 ^ 5 := by
    rw [BitVec.toNat_setWidth_of_le (by omega)]
    exact k.isLt
  obtain ⟨ds, h⟩ := chainCarries_drain (toByte := (id : Byte → Byte)) (c := c.absorb (k.setWidth 12) 5)
    (ds := c.emitted) lowByte_eq (by omega) _ ⟨by simp [Chain.absorb], absorb_carry_lt hc hk (by omega), rfl, rfl⟩
    (Nat.le_refl _)
  exact ⟨h.nbits, h.carry⟩

/-- The chain of a lookup pass, completed or interrupted, holds fewer than 8 bits (R37, R143). -/
theorem unpackAll_bounds (lz i : Nat) (input : List Byte) :
    match unpackAll lz i input with
    | .ok c => c.nbits < 8 ∧ c.carry.toNat < 2 ^ c.nbits
    | .bad b => b.chain.nbits < 8 ∧ b.chain.carry.toNat < 2 ^ b.chain.nbits := by
  induction input generalizing i with
  | nil => simp [unpackAll, Chain.start]
  | cons c cs ih =>
    have ih := ih (i + 1)
    rw [unpackAll]
    cases hu : unpackAll lz (i + 1) cs with
    | bad b => rwa [hu] at ih
    | ok chain =>
      rw [hu] at ih
      cases dlut (c.setWidth 7) with
      | none => exact ih
      | some k => exact unpackSymbol_bounds k ih.1 ih.2

theorem decodeRun_bad_bounds {input : List Byte} {b : BadSymbol} (h : decodeRun input = .bad b) :
    b.chain.nbits < 8 ∧ b.chain.carry.toNat < 2 ^ b.chain.nbits := by
  have hu := unpackAll_bounds (leadingCount zeroChar input) 0 input
  rw [decodeRun] at h
  split at h
  · cases h
    simp [Chain.start]
  · cases hr : unpackAll (leadingCount zeroChar input) 0 input with
    | bad b' =>
      rw [hr] at h hu
      cases h
      exact hu
    | ok c =>
      rw [hr] at h
      cases h

/-- A command under way whose CARRY fits in NBITS (R37). -/
structure Ready (s u : State) : Prop where
  underWay : UnderWay s u
  carry    : u.work.carry.toNat < 2 ^ u.work.nbits.toNat
  nbits    : u.work.nbits.toNat ≤ 12

theorem ready_beginCommand (s : State) : Ready s (beginCommand s) :=
  ⟨underWay_beginCommand s, by simp [Working.atIssue, Working.atReset], by simp [Working.atIssue, Working.atReset]⟩

theorem Ready.setVer {s u : State} (h : Ready s u) (v : BitVec 8) : Ready s (setVer v u) :=
  ⟨h.underWay.setVer v, h.carry, h.nbits⟩

theorem Ready.setChk {s u : State} (h : Ready s u) (q : Quad) : Ready s (setChk q u) :=
  ⟨h.underWay.setChk q, h.carry, h.nbits⟩

theorem Ready.goThrough {s u : State} (h : Ready s u) (ps : List Phase) : Ready s (goThrough ps u) :=
  ⟨h.underWay.goThrough ps, h.carry, h.nbits⟩

theorem Ready.load {s u : State} (h : Ready s u) (r : EngineRun) (base off : BitVec 2) : Ready s (r.load base off u) :=
  ⟨h.underWay.load r base off, by simp [EngineRun.load], by simp [EngineRun.load]⟩

theorem Ready.loadBad {s u : State} (h : Ready s u) {input : List Byte} {b : BadSymbol} (hb : decodeRun input = .bad b)
    (n : Nat) (off : BitVec 2) : Ready s (b.load n off u) := by
  obtain ⟨h8, hc⟩ := decodeRun_bad_bounds hb
  have hn : (BitVec.ofNat 4 b.chain.nbits).toNat = b.chain.nbits := by
    rw [BitVec.toNat_ofNat]
    exact Nat.mod_eq_of_lt (by omega)
  refine ⟨h.underWay.loadBad b n off, ?_, ?_⟩
  · show b.chain.carry.toNat < 2 ^ (BitVec.ofNat 4 b.chain.nbits).toNat
    rwa [hn]
  · show (BitVec.ofNat 4 b.chain.nbits).toNat ≤ 12
    omega

/-- The ways a command that began in `s` ends. -/
inductive Completion (s : State) : State → Prop where
  /-- An error completion; where it does not keep DST, DST_CAP is within DST. -/
  | failed (e : CommandError) (u : State) (h : Ready s u)
      (hd : e.keepsDst = true ∨ s.capacity ≤ s.params.dstSize) : Completion s (raise e u)
  /-- A buffer result within DST_CAP, itself within DST. -/
  | succeeded (result : List Byte) (version : BitVec 5) (u : State) (h : Ready s u)
      (hr : result.length ≤ s.capacity) (hd : s.capacity ≤ s.params.dstSize) : Completion s (succeed result version u)
  /-- The register result of a capacity command. -/
  | computed (len : Nat) (u : State) (h : Ready s u) : Completion s (finishWith len 0 u)

variable {s u : State}

theorem capacity_le_of_inRange (h : ¬s.lengthOutOfRange = true) : s.capacity ≤ s.params.dstSize := by
  simp [State.lengthOutOfRange] at h
  exact h.2

theorem completion_encodeInto (h : Ready s u) (hd : s.capacity ≤ s.params.dstSize) (head input : List Byte) :
    Completion s (encodeInto head input u) := by
  rw [encodeInto]
  have h' := h.load (encodeRun input) (BitVec.ofNat 2 head.length) 0
  have hc := h'.underWay.capacity
  split
  · exact .failed _ _ (h'.goThrough _) (Or.inr hd)
  · have : (encodeRun input).result.length ≤ (encodeRun input).peak := le_max_right _ _
    exact .succeeded _ _ _ (h'.goThrough _) (by simp only [List.length_append]; omega) hd

theorem completion_encodeCheckInto (h : Ready s u) (hd : s.capacity ≤ s.params.dstSize) (head : List Byte) :
    Completion s (encodeCheckInto head u) := by
  rw [encodeCheckInto]
  dsimp only
  split
  · exact .failed _ _ h (Or.inl rfl)
  · split
    · exact .failed _ _ (h.setVer _) (Or.inr hd)
    · exact completion_encodeInto (((h.setVer _).goThrough _).setChk _) hd _ _

theorem decodeRun_result_le_peak {input : List Byte} {r : EngineRun} (h : decodeRun input = .ok r) :
    r.result.length ≤ r.peak := by
  rw [decodeRun] at h
  split at h
  · cases h
  · split at h
    · cases h
    · cases h
      exact le_max_right _ _

theorem completion_decodeSlice (h : Ready s u) (hd : s.capacity ≤ s.params.dstSize) (off : Nat) :
    Completion s (decodeSlice off u) := by
  rw [decodeSlice]
  dsimp only
  split
  · exact .failed _ _ h (Or.inl rfl)
  · cases hr : decodeRun (srcRange off (u.inputLen - off) u) with
    | bad b => exact .failed _ _ ((h.loadBad hr _ _).goThrough _) (Or.inr hd)
    | ok r =>
      have h' := h.load r 0 (BitVec.ofNat 2 off)
      have hc := h'.underWay.capacity
      have hl := decodeRun_result_le_peak hr
      dsimp only
      split
      · exact .failed _ _ (h'.goThrough _) (Or.inr hd)
      · exact .succeeded _ _ _ (h'.goThrough _) (by omega) hd

theorem completion_verifyUnit (h : Ready s u) (hd : s.capacity ≤ s.params.dstSize) {unit : List Byte}
    (hu : unit.length ≤ s.capacity) (ver : BitVec 8) : Completion s (verifyUnit unit ver u) := by
  rw [verifyUnit]
  dsimp only
  split
  · exact .failed _ _ h (Or.inr hd)
  · split
    · exact .failed _ _ ((h.goThrough _).setChk _) (Or.inr hd)
    · exact .succeeded _ _ _ ((h.goThrough _).setChk _) (by simp only [List.length_take]; omega) hd

theorem completion_decodeCheckSlice (h : Ready s u) (hd : s.capacity ≤ s.params.dstSize) (off : Nat) :
    Completion s (decodeCheckSlice off u) := by
  rw [decodeCheckSlice]
  dsimp only
  split
  · exact .failed _ _ h (Or.inl rfl)
  split
  · exact .failed _ _ h (Or.inr hd)
  have hh := h.goThrough [.head]
  split
  · exact .failed _ _ hh (Or.inr hd)
  · rename_i k _
    have hv := hh.setVer (k.setWidth 8)
    split
    · exact .failed _ _ hv (Or.inr hd)
    split
    · rename_i b hr
      exact .failed _ _ ((hv.loadBad hr _ _).goThrough _) (Or.inr hd)
    · rename_i r hr
      have h' := hv.load r 0 (BitVec.ofNat 2 (off + 1))
      have hc := h'.underWay.capacity
      have hl := decodeRun_result_le_peak hr
      split
      · exact .failed _ _ (h'.goThrough _) (Or.inr hd)
      · exact completion_verifyUnit (h'.goThrough _) hd (by omega) _

theorem prefixError_cases (s : State) :
    (s.inputLen = 0 ∧ prefixError s = some (.missingPrefix s.prefixByte none)) ∨
    (s.inputLen ≠ 0 ∧ readByte .src 0 s ≠ s.prefixByte ∧
      prefixError s = some (.missingPrefix s.prefixByte (some (readByte .src 0 s)))) ∨
    (s.inputLen ≠ 0 ∧ readByte .src 0 s = s.prefixByte ∧ prefixError s = none) := by
  unfold prefixError
  split
  · exact Or.inl ⟨‹_›, rfl⟩
  · split
    · exact Or.inr (Or.inl ⟨‹_›, ‹_›, rfl⟩)
    · rename_i h
      exact Or.inr (Or.inr ⟨‹_›, by simpa using h, rfl⟩)

/-- Every command answers a next state that is one of these completions. -/
theorem exec_completion (i : Instr) (s : State) : ∃ t, exec i s = .next t ∧ Completion s t := by
  have hb := ready_beginCommand s
  cases i with
  | enclen => exact ⟨_, rfl, .computed _ _ hb⟩
  | declen => exact ⟨_, rfl, .computed _ _ hb⟩
  | encchklen => exact ⟨_, rfl, .computed _ _ hb⟩
  | decchklen => exact ⟨_, rfl, .computed _ _ hb⟩
  | encode =>
    refine ⟨_, rfl, ?_⟩
    split
    · exact .failed _ _ hb (Or.inl rfl)
    rename_i hr
    split
    · exact .failed _ _ hb (Or.inl rfl)
    · exact completion_encodeInto hb (capacity_le_of_inRange (by simpa using hr)) _ _
  | encodeP =>
    refine ⟨_, rfl, ?_⟩
    split
    · exact .failed _ _ hb (Or.inl rfl)
    rename_i hr
    split
    · exact .failed _ _ hb (Or.inl rfl)
    · exact completion_encodeInto (hb.goThrough _) (capacity_le_of_inRange (by simpa using hr)) _ _
  | encodeCheck =>
    refine ⟨_, rfl, ?_⟩
    split
    · exact .failed _ _ hb (Or.inl rfl)
    · rename_i hr
      exact completion_encodeCheckInto hb (capacity_le_of_inRange (by simpa using hr)) _
  | encodeCheckP =>
    refine ⟨_, rfl, ?_⟩
    split
    · exact .failed _ _ hb (Or.inl rfl)
    · rename_i hr
      exact completion_encodeCheckInto hb (capacity_le_of_inRange (by simpa using hr)) _
  | decode =>
    refine ⟨_, rfl, ?_⟩
    split
    · exact .failed _ _ hb (Or.inl rfl)
    · rename_i hr
      exact completion_decodeSlice hb (capacity_le_of_inRange (by simpa using hr)) _
  | decodeCheck =>
    refine ⟨_, rfl, ?_⟩
    split
    · exact .failed _ _ hb (Or.inl rfl)
    · rename_i hr
      exact completion_decodeCheckSlice hb (capacity_le_of_inRange (by simpa using hr)) _
  | decodeP =>
    refine ⟨_, rfl, ?_⟩
    split
    · exact .failed _ _ hb (Or.inl rfl)
    rename_i hr
    have hd := capacity_le_of_inRange (s := s) (by simpa using hr)
    split
    · exact .failed _ _ hb (Or.inr hd)
    · exact completion_decodeSlice hb hd _
  | decodeCheckP =>
    refine ⟨_, rfl, ?_⟩
    split
    · exact .failed _ _ hb (Or.inl rfl)
    rename_i hr
    have hd := capacity_le_of_inRange (s := s) (by simpa using hr)
    split
    · exact .failed _ _ hb (Or.inr hd)
    · exact completion_decodeCheckSlice hb hd _

end Sys2Proof.Machine
end

