-- ==== Sys2Proof/Laws/PerInstr.lean ====
section
/-! SUPPORT. Statements about each command as syntax, one lemma for each constructor (LAWS.json). -/

namespace Sys2Proof.Laws.Fields

/-- The bits of a command's byte are the fields of the column "P L C D" (R80, R81), and the command is well formed (R82). -/
def Statement (i : Instr) : Prop := commandFieldsOf (encodeByte i) = i.fields ∧ i.wellFormed = true

theorem encode : Statement .encode := by rw [Statement]; decide

theorem decode : Statement .decode := by rw [Statement]; decide

theorem encodeCheck : Statement .encodeCheck := by rw [Statement]; decide

theorem decodeCheck : Statement .decodeCheck := by rw [Statement]; decide

theorem enclen : Statement .enclen := by rw [Statement]; decide

theorem declen : Statement .declen := by rw [Statement]; decide

theorem encchklen : Statement .encchklen := by rw [Statement]; decide

theorem decchklen : Statement .decchklen := by rw [Statement]; decide

theorem encodeP : Statement .encodeP := by rw [Statement]; decide

theorem decodeP : Statement .decodeP := by rw [Statement]; decide

theorem encodeCheckP : Statement .encodeCheckP := by rw [Statement]; decide

theorem decodeCheckP : Statement .decodeCheckP := by rw [Statement]; decide

end Sys2Proof.Laws.Fields
end

