-- ==== Sys2Proof/Tests/Slice0.lean ====
section
/-! SUPPORT. Tests against the spec's words, tables and vectors (95_test_vectors.md, T<n>), and for every statement with
hypotheses a witness that meets them. -/

namespace Sys2Proof.Tests

open Sys2Proof.Machine

-- One theorem after another: each concurrent kernel evaluation would hold a thread's stack.
set_option Elab.async false

/-! ### Helpers -/

/-- The codes of a string. -/
def ascii (text : String) : List Byte := text.toList.map fun c => BitVec.ofNat 8 c.toNat

/-- The block with an input in SRC and its length and a capacity in the operand registers. -/
def holding (input : List Byte) (cap : Nat) : State :=
  { State.reset with
    src := cellsFrom 0 input, srcLen := BitVec.ofNat 32 input.length, dstCap := BitVec.ofNat 32 cap }

/-- The same with PREFIX = 'S'. -/
def prefixed (input : List Byte) (cap : Nat) : State := { holding input cap with prefixReg := 0x53 }

/-- The same with a VERSION. -/
def versioned (version : BitVec 8) (input : List Byte) (cap : Nat) : State :=
  { holding input cap with version := version }

/-- The block BUSY with a command issued, the HOST waiting. -/
def running (i : Instr) (input : List Byte) (cap : Nat) : State :=
  (holding input cap).withFetchWord 8 (encodeByte i).toNat

/-- The state a command leaves. -/
def after (i : Instr) (s : State) : State :=
  match exec i s with
  | .next t => t
  | .fault _ => s
  | .refused _ => s

theorem exec_after (i : Instr) (s : State) : exec i s = .next (after i s) := by
  obtain ⟨t, h, -⟩ := exec_completion i s
  rw [after, h]

theorem turn_running (i : Instr) (input : List Byte) (cap : Nat) :
    turn (running i input cap) = .core (running i input cap) := rfl

theorem fetch_running (i : Instr) (input : List Byte) (cap : Nat) : fetch (running i input cap) = .ok i [] := by
  show decode [tableByte 8 (encodeByte i).toNat] = .ok i []
  cases i <;> decide

/-- The step of a running block is its command. -/
theorem step_running (i : Instr) (input : List Byte) (cap : Nat) :
    step (running i input cap) = .next (after i (running i input cap)) := by
  rw [step, turn_running]
  show coreStep _ = _
  rw [coreStep, fetch_running]
  exact exec_after _ _

/-- DST[0..n). -/
def dstBytes (n : Nat) (s : State) : List Byte := (List.range n).map fun j => readByte .dst j s

/-- What a command leaves on success: STATUS, the result bytes, RESULT_VERSION. -/
def result (i : Instr) (s : State) : BitVec 8 × List Byte × BitVec 8 :=
  let t := after i s
  (t.status, dstBytes t.resultLen.toNat t, t.resultVersion)

/-- What a command leaves on failure: STATUS, the record, RESULT_LEN. -/
def failure (i : Instr) (s : State) : BitVec 8 × ErrorRecord × Word64 :=
  let t := after i s
  (t.status, t.err, t.resultLen)

/-! ### Ill-formed terms the checks refuse -/

theorem test_zeroOk_refuses : CommandFields.zeroOk ⟨1, true, false, false, false, false⟩ = false := by decide
theorem test_goOk_refuses : CommandFields.goOk ⟨0, false, false, false, false, false⟩ = false := by decide
theorem test_variantOk_refuses : CommandFields.variantOk ⟨0, true, true, true, false, false⟩ = false := by decide
theorem test_wellFormed_refuses :
    CommandFields.wellFormed ⟨1, true, false, false, false, false⟩ = false ∧
    CommandFields.wellFormed ⟨0, false, false, false, false, false⟩ = false ∧
    CommandFields.wellFormed ⟨0, true, true, true, false, false⟩ = false := by decide
theorem test_params_refused :
    Params.wellFormed ⟨0, 512⟩ = false ∧ Params.wellFormed ⟨256, 0⟩ = false ∧
    Params.wellFormed ⟨2 ^ 32, 512⟩ = false ∧ Params.wellFormed ⟨2 ^ 32 - 1, 512⟩ = true := by decide

/-! ### Decoding: the words of R81 bit by bit (ZERO GO P L C D), and the illegal bytes of R82 and T230 -/

theorem test_decode_ENCODE : decode [0b000_1_0_0_0_0] = .ok .encode [] := by decide
theorem test_decode_DECODE : decode [0b000_1_0_0_0_1] = .ok .decode [] := by decide
theorem test_decode_ENCODE_CHECK : decode [0b000_1_0_0_1_0] = .ok .encodeCheck [] := by decide
theorem test_decode_DECODE_CHECK : decode [0b000_1_0_0_1_1] = .ok .decodeCheck [] := by decide
theorem test_decode_ENCLEN : decode [0b000_1_0_1_0_0] = .ok .enclen [] := by decide
theorem test_decode_DECLEN : decode [0b000_1_0_1_0_1] = .ok .declen [] := by decide
theorem test_decode_ENCCHKLEN : decode [0b000_1_0_1_1_0] = .ok .encchklen [] := by decide
theorem test_decode_DECCHKLEN : decode [0b000_1_0_1_1_1] = .ok .decchklen [] := by decide
theorem test_decode_ENCODE_P : decode [0b000_1_1_0_0_0] = .ok .encodeP [] := by decide
theorem test_decode_DECODE_P : decode [0b000_1_1_0_0_1] = .ok .decodeP [] := by decide
theorem test_decode_ENCODE_CHECK_P : decode [0b000_1_1_0_1_0] = .ok .encodeCheckP [] := by decide
theorem test_decode_DECODE_CHECK_P : decode [0b000_1_1_0_1_1] = .ok .decodeCheckP [] := by decide
theorem test_decode_goClear : decode [0x00] = .rejected .goClear ∧ decode [0x0F] = .rejected .goClear := by decide
theorem test_decode_prefixedCapacity :
    decode [0x1C] = .rejected .prefixedCapacity ∧ decode [0x1F] = .rejected .prefixedCapacity := by decide
theorem test_decode_zeroField : decode [0x20] = .rejected .zeroField ∧ decode [0xFF] = .rejected .zeroField := by decide
theorem test_decodeTableWord : decodeTableWord 8 0x1B = some .decodeCheckP ∧ decodeTableWord 8 0x1C = none := by decide

/-! ### The tables, the SHA-256 unit, the capacity functions -/

/-- R85: `U`, a lower-case letter, the hyphen, the space and 0x7F are invalid. -/
theorem test_dlut_invalid : [0x55, 0x61, 0x2D, 0x20, 0x7F, 0x00].map dlut = List.replicate 6 none := by decide

/-- T241. -/
theorem test_sha256_abc : sha256 [0x61, 0x62, 0x63] =
    [0xba, 0x78, 0x16, 0xbf, 0x8f, 0x01, 0xcf, 0xea, 0x41, 0x41, 0x40, 0xde, 0x5d, 0xae, 0x22, 0x23,
     0xb0, 0x03, 0x61, 0xa3, 0x96, 0x17, 0x7a, 0x9c, 0xb4, 0x10, 0xff, 0x61, 0xf2, 0x00, 0x15, 0xad] := by
  decide +kernel

/-- T160: `compute` of the empty payload. -/
theorem test_compute_empty : compute [] 0 = ⟨0x14, 0x06, 0xE0, 0x58⟩ := by decide +kernel

/-- T33: no range check. -/
theorem test_ENCLEN_T33 : (after .enclen { State.reset with srcLen := 257 }).resultLen = 412 := by decide +kernel
/-- T35. -/
theorem test_ENCLEN_T35 : (after .enclen { State.reset with srcLen := 0xFFFFFFFF }).resultLen = 6871947672 := by
  decide +kernel
/-- T35. -/
theorem test_DECLEN_T35 : (after .declen { State.reset with srcLen := 0xFFFFFFFF }).resultLen = 4294967295 := by
  decide +kernel
/-- T20. -/
theorem test_ENCCHKLEN_T20 : (after .encchklen State.reset).resultLen = 8 := by decide +kernel
/-- T35. -/
theorem test_ENCCHKLEN_T35 : (after .encchklen { State.reset with srcLen := 0xFFFFFFFF }).resultLen = 6871947680 := by
  decide +kernel
/-- T34. -/
theorem test_DECCHKLEN_T34 : (after .decchklen { State.reset with srcLen := 65535 }).resultLen = 65535 := by
  decide +kernel

/-! ### The buffer commands -/

/-- T56: leading zeros kept, an inner zero kept. -/
theorem test_ENCODE_T56 : result .encode (holding [0, 0, 16, 0] 7) = (0x02, ascii "00400", 0) := by decide +kernel
/-- T9. -/
theorem test_ENCODE_T9 : failure .encode (holding [1, 2, 3, 4, 5] 2) =
    (0x06, { ErrorRecord.zero with errKind := 1, errMin := 8, errLen := 2 }, 0) := by decide +kernel
/-- T109, the alias inside; T87's bytes. -/
theorem test_DECODE_T109 : result .decode (holding (ascii "2OG3") 4) = (0x02, [1, 2, 3], 0) := by decide +kernel
/-- T120, lower case, the highest index; T130, two bytes of 128 or more, the lowest index; T131, the ASCII pass first. -/
theorem test_DECODE_T120_T130_T131 :
    failure .decode (holding (ascii "2maha") 5) =
      (0x06, { ErrorRecord.zero with errKind := 2, errChar := 0x61, errIndex := 4 }, 0) ∧
    failure .decode (holding [0x32, 0xFF, 0x41, 0x48, 0x80] 5) =
      (0x06, { ErrorRecord.zero with errKind := 2, errChar := 0xFF, errIndex := 1 }, 0) ∧
    failure .decode (holding [0x21, 0xC3] 2) =
      (0x06, { ErrorRecord.zero with errKind := 2, errChar := 0xC3, errIndex := 1 }, 0) := by decide +kernel
/-- T144. -/
theorem test_ENCODE_P_T144 :
    result .encodeP { holding [0, 0] 5 with prefixReg := 0x30 } = (0x02, ascii "000", 0) := by decide +kernel
/-- T143. -/
theorem test_ENCODE_P_T143 : failure .encodeP (prefixed [] 0) =
    (0x06, { ErrorRecord.zero with errKind := 1, errMin := 1 }, 0) := by decide +kernel
/-- T145. -/
theorem test_DECODE_P_T145 : result .decodeP (prefixed (ascii "S2MAHA") 5) = (0x02, [42, 42, 42], 0) := by
  decide +kernel
/-- T148, T150, T154. -/
theorem test_DECODE_P_T148_T150_T154 :
    failure .decodeP (prefixed [] 5) =
      (0x06, { ErrorRecord.zero with errKind := 3, errExpected := ⟨0x53, 0, 0, 0⟩ }, 0) ∧
    failure .decodeP (prefixed (ascii "S2M!HA") 5) =
      (0x06, { ErrorRecord.zero with errKind := 2, errChar := 0x21, errIndex := 3 }, 0) ∧
    failure .decodeP (prefixed (ascii "X2MAHA") 0) =
      (0x06, { ErrorRecord.zero with
        errKind := 3, errExpected := ⟨0x53, 0, 0, 0⟩, errGot := ⟨0x58, 0, 0, 0⟩, errGotValid := 1 }, 0) := by
  decide +kernel
/-- T5, the document's vector. -/
theorem test_ENCODE_CHECK_T5 :
    result .encodeCheck (holding [42, 42, 42] 13) = (0x02, ascii "0AHA59B9201Z", 0) := by decide +kernel
/-- T181, T182. -/
theorem test_ENCODE_CHECK_T181_T182 :
    failure .encodeCheck (versioned 255 [42, 42, 42] 13) =
      (0x06, { ErrorRecord.zero with errKind := 4, errVersion := 255 }, 0) ∧
    failure .encodeCheck (versioned 32 [42, 42, 42] 12) =
      (0x06, { ErrorRecord.zero with errKind := 1, errMin := 13, errLen := 12 }, 0) := by decide +kernel
/-- T186. -/
theorem test_ENCODE_CHECK_P_T186 :
    result .encodeCheckP { prefixed [1, 2, 3] 14 with version := 5 } = (0x02, ascii "S5820FCEYFDE", 0) := by
  decide +kernel
/-- T185. -/
theorem test_ENCODE_CHECK_P_T185 : failure .encodeCheckP (prefixed [42, 42, 42] 13) =
    (0x06, { ErrorRecord.zero with errKind := 1, errMin := 14, errLen := 13 }, 0) := by decide +kernel
/-- T209: an alias as version symbol. -/
theorem test_DECODE_CHECK_T209 :
    result .decodeCheck (holding (ascii "IAHA582NHGPF") 12) = (0x02, [42, 42, 42], 1) := by decide +kernel
/-- T193, T199, T201, T204. -/
theorem test_DECODE_CHECK_T193_T199_T201_T204 :
    failure .decodeCheck (holding (ascii "0Z") 2) =
      (0x06, { ErrorRecord.zero with errKind := 7, faultCause := 2 }, 0) ∧
    failure .decodeCheck (holding (ascii "!!") 2) =
      (0x06, { ErrorRecord.zero with errKind := 2, errChar := 0x21, errIndex := 0 }, 0) ∧
    failure .decodeCheck (holding [0x30, 0x21, 0x80] 3) =
      (0x06, { ErrorRecord.zero with errKind := 2, errChar := 0x80, errIndex := 2 }, 0) ∧
    failure .decodeCheck (holding (ascii "0AHA59B9201Y") 12) =
      (0x06, { ErrorRecord.zero with
        errKind := 6, errExpected := ⟨0x56, 0x91, 0x00, 0x3F⟩, errGot := ⟨0x56, 0x91, 0x00, 0x3E⟩,
        errGotValid := 1 }, 0) := by decide +kernel
/-- T218. -/
theorem test_DECODE_CHECK_P_T218 :
    result .decodeCheckP (prefixed (ascii "S5820FCEYFDE") 11) = (0x02, [1, 2, 3], 5) := by decide +kernel
/-- T213, T216. -/
theorem test_DECODE_CHECK_P_T213_T216 :
    failure .decodeCheckP (prefixed (ascii "S") 12) =
      (0x06, { ErrorRecord.zero with errKind := 5, errMin := 2, errLen := 0 }, 0) ∧
    failure .decodeCheckP (prefixed (ascii "S0AHA59B92u1Z") 12) =
      (0x06, { ErrorRecord.zero with errKind := 2, errChar := 0x75, errIndex := 10 }, 0) := by decide +kernel
/-- T231, T232, T233. -/
theorem test_lengthOutOfRange_T231_T232_T233 :
    failure .encode { State.reset with srcLen := 257 } =
      (0x06, { ErrorRecord.zero with errKind := 7, faultCause := 4 }, 0) ∧
    failure .encode { State.reset with dstCap := 513 } =
      (0x06, { ErrorRecord.zero with errKind := 7, faultCause := 4 }, 0) ∧
    failure .decode { State.reset with srcLen := 300, dstCap := 600 } =
      (0x06, { ErrorRecord.zero with errKind := 7, faultCause := 4 }, 0) := by decide +kernel

/-! ### The step and the HOST -/

/-- `withFetchWord` at reset: the very next step runs the command. -/
theorem test_step_runs_first_command :
    (match step (State.reset.withFetchWord 8 0x16) with
      | .next t => some t.resultLen
      | .fault _ => none
      | .refused _ => none) = some 8 := by decide +kernel

/-- T230 through the step: the illegal byte 0x1C. -/
theorem test_step_illegal_T230 :
    (match step (State.reset.withFetchWord 8 0x1C) with
      | .next t => some (t.cmd, t.status, t.err.errKind, t.err.faultCause)
      | .fault _ => none
      | .refused _ => none) = some (0x1C, 0x06, 7, 1) := by decide +kernel

/-- P5 lines 7, 8: element 0 of ERR_EXPECTED is in bits 7:0 of its slot. -/
theorem test_slot_of_array :
    slotAt 0x78 { State.reset with err := { ErrorRecord.zero with errExpected := ⟨0x56, 0x91, 0x00, 0x3F⟩ } } =
      0x3F009156 := by decide

/-- R61: PREFIX keeps the low 7 bits of a write. -/
theorem test_prefix_write_low_bits : (regWrite 0x28 0xD3 State.reset).prefixReg = 0x53 := by decide

/-- R68: while BUSY a buffer write past the end of SRC is dropped and the script goes on. -/
theorem test_write_past_end_while_busy_dropped :
    (match hostAct (.wrb .src 256 [0xAA]) [.wait] (running .encode [1, 2, 3] 5) with
      | .next u => some (u.src, u.script)
      | .fault _ => none
      | .refused _ => none) = some ([(0, 1), (1, 2), (2, 3)], [.wrb .src 257 [], .wait]) := by decide

/-- R40 and R141: a byte of 128 or more ends DECODE from P_SCAN, and another invalid byte from P_PACK. -/
theorem test_phases_of_invalid_character :
    (after .decode (holding [0x80] 1)).phases = [.args, .scan, .finish, .idle] ∧
    (after .decode (holding [0x21] 1)).phases = [.args, .scan, .lz, .pack, .finish, .idle] := by decide +kernel

/-- R68: a write while BUSY is dropped. -/
theorem test_write_while_busy_dropped :
    (regWrite 0x10 5 (running .encode [1, 2, 3] 5)).srcLen = 3 ∧
    (regWrite 0x00 0x11 (running .encode [1, 2, 3] 5)).cmd = 0x10 := by decide

/-! ### Witnesses: for each statement with hypotheses, values that meet all of them, at the ends of their ranges -/

/-- A byte past each end of the legal range decodes to no command, and each end decodes to one. -/
theorem witness_CommandBytesDecode :
    decode [0x10] = .ok .encode [] ∧ decode [0x1B] = .ok .decodeCheckP [] := by decide

theorem witness_DecodeOfEncode : Instr.wellFormed .decodeCheckP = true ∧ Instr.wellFormed .encode = true := by decide

/-- The two ends of each range of illegal bytes, and the legal neighbours. -/
theorem witness_IllegalBytesRejected :
    ∀ b : Byte, b ∈ [0x00, 0x0F, 0x1C, 0x1F, 0x20, 0xFF] →
      ∃ e ∈ [DecodeError.zeroField, .goClear, .prefixedCapacity], decode [b] = .rejected e := by decide

/-- The last entry of DLUT that is valid, and an alias. -/
theorem witness_DlutIsAlphabetPlusThreeAliases : dlut 0x5A ≠ none ∧ dlut 0x4F ≠ none := by decide

/-- BUSY with the HOST waiting, BUSY with the HOST going on, and the same two with an illegal byte. -/
theorem witness_StepRunsDecodedCommand :
    (Instr.wellFormed .encode = true ∧ (running .encode [1] 2).isBusy = true ∧
      fetch (running .encode [1] 2) = .ok .encode [] ∧ hostWaits (running .encode [1] 2).script = true) ∧
    (∃ s : State, s.isBusy = true ∧ fetch s = .ok .encode [] ∧ s.script = [.rd 0x08] ∧ hostWaits s.script = false) ∧
    (∃ s : State, s.isBusy = true ∧ fetch s = .rejected .prefixedCapacity ∧ hostWaits s.script = true) ∧
    ∃ s : State, s.isBusy = true ∧ fetch s = .rejected .prefixedCapacity ∧ s.script = [.rd 0x08] ∧
      hostWaits s.script = false :=
  ⟨by decide, ⟨{ running .encode [1] 2 with script := [.rd 0x08] }, by decide⟩,
    ⟨State.reset.withFetchWord 8 0x1C, by decide⟩,
    ⟨{ State.reset.withFetchWord 8 0x1C with script := [.rd 0x08] }, by decide⟩⟩

/-- IDLE with the script ended, and IDLE with a line to act on. -/
theorem witness_IdleBlockRests :
    (State.reset.isBusy = false ∧ State.reset.script = []) ∧
    ∃ s : State, s.isBusy = false ∧ s.script = .wr 0x10 3 :: [.reset] :=
  ⟨by decide, { State.reset with script := [.wr 0x10 3, .reset] }, by decide⟩

theorem witness_CommandLineRunsCommand :
    ∃ s : State, s.isBusy = false ∧ s.script = .cmd .encode :: [.wait] ∧ hostWaits [.wait] = true :=
  ⟨{ State.reset with script := [.cmd .encode, .wait] }, by decide⟩

/-- Each end of each illegal range meets the hypotheses at reset. -/
theorem witness_IllegalCommandCompletesAtOnce :
    ∀ b : Byte, b ∈ [0x00, 0x0F, 0x1C, 0x1F, 0x20, 0xFF] →
      State.reset.isBusy = false ∧ (b.toNat ≤ 0x0F ∨ (0x1C ≤ b.toNat ∧ b.toNat ≤ 0x1F) ∨ 0x20 ≤ b.toNat) := by decide

theorem witness_EncodedLengthLaws : encodedLength 0 = 0 ∧ encodedLength 1 = 2 ∧ 0 ≤ 1 := by decide

/-- The range test: the first lengths past each size, and the sizes themselves. -/
theorem witness_OutOfRange :
    OutOfRange (holding [] 513) ∧ OutOfRange { State.reset with srcLen := 257 } ∧
    ¬OutOfRange { State.reset with srcLen := 256, dstCap := 512 } := by decide

/-- ENCODE: one below the minimum, and the minimum (T62's neighbour T9, T59). -/
theorem witness_EncodeOutcomeOnEveryState :
    (¬OutOfRange (holding [1, 2, 3, 4, 5] 7) ∧
      (holding [1, 2, 3, 4, 5] 7).capacity < ((holding [1, 2, 3, 4, 5] 7).inputLen * 8 + 4) / 5) ∧
    (¬OutOfRange (holding [1, 2, 3, 4, 5] 8) ∧
      ((holding [1, 2, 3, 4, 5] 8).inputLen * 8 + 4) / 5 ≤ (holding [1, 2, 3, 4, 5] 8).capacity) := by decide

theorem witness_EncodePrefixedOutcomeOnEveryState :
    (¬OutOfRange (prefixed [42, 42, 42] 5) ∧
      (prefixed [42, 42, 42] 5).capacity < 1 + ((prefixed [42, 42, 42] 5).inputLen * 8 + 4) / 5) ∧
    (¬OutOfRange (prefixed [42, 42, 42] 6) ∧
      1 + ((prefixed [42, 42, 42] 6).inputLen * 8 + 4) / 5 ≤ (prefixed [42, 42, 42] 6).capacity) := by decide

/-- DECODE: below the capacity; an invalid byte; all valid at exactly the capacity. -/
theorem witness_DecodeOutcomeOnEveryState :
    (holding (ascii "2MAHA") 4).capacity < (holding (ascii "2MAHA") 4).inputLen - 0 ∧
    badIndex (srcRange 0 5 (holding (ascii "2M!HA") 5)) = some 2 ∧
    badIndex (srcRange 0 5 (holding (ascii "2MAHA") 5)) = none ∧
    ¬OutOfRange (holding (ascii "2MAHA") 5) := by decide +kernel

/-- The prefixed decode commands: no input; a wrong prefix; the right prefix alone. -/
theorem witness_DecodePrefixedOutcomeOnEveryState :
    (¬OutOfRange (prefixed [] 0) ∧ (prefixed [] 0).inputLen = 0) ∧
    (¬OutOfRange (prefixed (ascii "s") 0) ∧ (prefixed (ascii "s") 0).inputLen ≠ 0 ∧
      readByte .src 0 (prefixed (ascii "s") 0) ≠ (prefixed (ascii "s") 0).prefixReg.setWidth 8) ∧
    (¬OutOfRange (prefixed (ascii "S") 0) ∧ (prefixed (ascii "S") 0).inputLen ≠ 0 ∧
      readByte .src 0 (prefixed (ascii "S") 0) = (prefixed (ascii "S") 0).prefixReg.setWidth 8) := by decide +kernel

/-- ENCODE_CHECK: one below the minimum; the minimum with VERSION 32; the minimum with VERSION 31. -/
theorem witness_EncodeCheckOutcomeOnEveryState :
    (¬OutOfRange (holding [42, 42, 42] 12) ∧
      (holding [42, 42, 42] 12).capacity < encodedCheckLength (holding [42, 42, 42] 12).inputLen) ∧
    (¬OutOfRange (versioned 32 [42, 42, 42] 13) ∧
      encodedCheckLength (versioned 32 [42, 42, 42] 13).inputLen ≤ (versioned 32 [42, 42, 42] 13).capacity ∧
      32 ≤ (versioned 32 [42, 42, 42] 13).version.toNat) ∧
    (¬OutOfRange (versioned 31 [42, 42, 42] 13) ∧
      encodedCheckLength (versioned 31 [42, 42, 42] 13).inputLen ≤ (versioned 31 [42, 42, 42] 13).capacity ∧
      (versioned 31 [42, 42, 42] 13).version.toNat < 32) := by decide

theorem witness_EncodeCheckPrefixedOutcomeOnEveryState :
    (¬OutOfRange (holding [42, 42, 42] 13) ∧
      (holding [42, 42, 42] 13).capacity < 1 + encodedCheckLength (holding [42, 42, 42] 13).inputLen) ∧
    (¬OutOfRange (versioned 32 [42, 42, 42] 14) ∧
      1 + encodedCheckLength (versioned 32 [42, 42, 42] 14).inputLen ≤ (versioned 32 [42, 42, 42] 14).capacity ∧
      32 ≤ (versioned 32 [42, 42, 42] 14).version.toNat) ∧
    (¬OutOfRange (versioned 31 [42, 42, 42] 14) ∧
      1 + encodedCheckLength (versioned 31 [42, 42, 42] 14).inputLen ≤ (versioned 31 [42, 42, 42] 14).capacity ∧
      (versioned 31 [42, 42, 42] 14).version.toNat < 32) := by decide

/-- DECODE_CHECK: below the capacity; one symbol; an invalid version symbol; an invalid unit; a short unit; a mismatch; a frame
(T203, T191, T197, T200, T194, T204, T6). -/
theorem witness_DecodeCheckOutcomeOnEveryState :
    (holding (ascii "0AHA59B9201Z") 11).capacity < (holding (ascii "0AHA59B9201Z") 11).inputLen - 0 ∧
    (holding (ascii "0") 1).inputLen - 0 < 2 ∧
    symbolValue (readByte .src 0 (holding (ascii "U0") 2)) = none ∧
    badIndex (srcRange 1 1 (holding (ascii "0!") 2)) = some 0 ∧
    decBytes (srcRange 1 4 (holding (ascii "0ZZZZ") 5)) = some [0x0F, 0xFF, 0xFF] ∧
    (compute [42, 42, 42] 0 ≠ quadOfBytes [0x56, 0x91, 0x00, 0x3E]) ∧
    decBytes (srcRange 1 11 (holding (ascii "0AHA59B9201Z") 12)) = some [42, 42, 42, 0x56, 0x91, 0x00, 0x3F] := by
  decide +kernel

/-- The same on a prefixed frame: no input, a wrong prefix, the right one (T214, T210). -/
theorem witness_DecodeCheckPrefixedOutcomeOnEveryState :
    (¬OutOfRange (prefixed [] 12) ∧ (prefixed [] 12).inputLen = 0) ∧
    (¬OutOfRange (prefixed (ascii "X0AHA59B9201Z") 12) ∧ (prefixed (ascii "X0AHA59B9201Z") 12).inputLen ≠ 0 ∧
      readByte .src 0 (prefixed (ascii "X0AHA59B9201Z") 12) ≠ (0x53 : BitVec 7).setWidth 8) ∧
    (¬OutOfRange (prefixed (ascii "S0AHA59B9201Z") 12) ∧ (prefixed (ascii "S0AHA59B9201Z") 12).inputLen ≠ 0 ∧
      readByte .src 0 (prefixed (ascii "S0AHA59B9201Z") 12) = (0x53 : BitVec 7).setWidth 8) := by decide +kernel

theorem witness_DecodeOfValidSymbolsCompletes :
    let s := holding (ascii "2MAHA") 5
    s.inputLen ≤ s.params.srcSize ∧ s.capacity ≤ s.params.dstSize ∧ s.inputLen ≤ s.capacity ∧
      ∀ c ∈ srcRange 0 s.inputLen s, c.toNat < 128 ∧ dlut (c.setWidth 7) ≠ none := by decide +kernel

theorem witness_DecodePrefixedOfValidSymbolsCompletes :
    let s := prefixed (ascii "S2MAHA") 5
    s.inputLen ≤ s.params.srcSize ∧ s.capacity ≤ s.params.dstSize ∧ s.inputLen ≤ s.capacity + 1 ∧ s.inputLen ≠ 0 ∧
      readByte .src 0 s = s.prefixReg.setWidth 8 ∧
      ∀ c ∈ srcRange 1 (s.inputLen - 1) s, c.toNat < 128 ∧ dlut (c.setWidth 7) ≠ none := by decide +kernel

/-- T6. -/
theorem witness_DecodeCheckOfFrameCompletes :
    let s := holding (ascii "0AHA59B9201Z") 12
    s.inputLen ≤ s.params.srcSize ∧ s.capacity ≤ s.params.dstSize ∧ s.inputLen ≤ s.capacity ∧
      srcRange 0 s.inputLen s =
        symbol 0 :: encBytes ([42, 42, 42] ++ quadBytes (compute [42, 42, 42] ((0 : BitVec 5).setWidth 8))) := by
  decide +kernel

/-- T218. -/
theorem witness_DecodeCheckPrefixedOfFrameCompletes :
    let s := prefixed (ascii "S5820FCEYFDE") 11
    s.inputLen ≤ s.params.srcSize ∧ s.capacity ≤ s.params.dstSize ∧ s.inputLen ≤ s.capacity + 1 ∧
      srcRange 0 s.inputLen s = s.prefixReg.setWidth 8 :: symbol 5 ::
        encBytes ([1, 2, 3] ++ quadBytes (compute [1, 2, 3] ((5 : BitVec 5).setWidth 8))) := by
  decide +kernel

/-- A prefix of zeros before another byte: an index below the count, and the count itself below the length. -/
theorem witness_LeadingCountIsLongestPrefix :
    0 < leadingCount 0 [0, 0, 1] ∧ leadingCount 0 [0, 0, 1] < [(0 : Byte), 0, 1].length := by decide

/-- Trace C. -/
theorem witness_UnpackChainCounts : ∃ c, unpackAll 0 0 (ascii "20G3") = .ok c :=
  ⟨{ carry := 1, nbits := 4, emitted := [0x02, 0x03] }, by decide +kernel⟩

/-- Trace C, and P3's run, which had emitted one byte when it met the invalid symbol. -/
theorem witness_EngineRunsWithinCapacity :
    (∃ r, decodeRun (ascii "20G3") = .ok r) ∧
    ∃ b, decodeRun (ascii "2M!HA") = .bad b ∧ b.chain.emitted.length = 1 :=
  ⟨⟨{ n := 4, lz := 0, peak := 3, result := [1, 2, 3] }, by decide +kernel⟩,
    ⟨{ char := 0x21, index := 2, lz := 0, chain := { carry := 2, nbits := 2, emitted := [0x2A] } }, by decide +kernel⟩⟩

theorem witness_DecodeEngineClosedForm :
    (∀ c ∈ ascii "20G3", c.toNat < 128 ∧ dlut (c.setWidth 7) ≠ none) ∧ decBytes (ascii "20G3") ≠ none := by
  decide +kernel

/-- ENCODE of T45, its result copied to SRC. -/
theorem witness_DecodeCommandRestoresEncodedInput :
    ∃ s t u : State, exec .encode s = .next t ∧ t.status = 0x02 ∧ HoldsResultOf t u ∧
      u.inputLen ≤ u.params.srcSize ∧ u.capacity ≤ u.params.dstSize ∧ u.inputLen ≤ u.capacity :=
  ⟨holding [255] 2, after .encode (holding [255] 2), holding (ascii "7Z") 2, exec_after _ _, by decide +kernel,
    ⟨by decide +kernel, by decide +kernel⟩, by decide, by decide, by decide⟩

/-- ENCODE_CHECK of T161, its result copied to SRC. -/
theorem witness_DecodeCheckRestoresPayloadAndVersion :
    ∃ s t u : State, exec .encodeCheck s = .next t ∧ t.status = 0x02 ∧ HoldsResultOf t u ∧
      u.inputLen ≤ u.params.srcSize ∧ u.capacity ≤ u.params.dstSize ∧ u.inputLen ≤ u.capacity :=
  ⟨versioned 1 [] 8, after .encodeCheck (versioned 1 [] 8), holding (ascii "12E15KYW") 8, exec_after _ _,
    by decide +kernel, ⟨by decide +kernel, by decide +kernel⟩, by decide, by decide, by decide⟩

/-- Every kind of failure is reached by a command that may report it, and a capacity command reports none. -/
theorem witness_ErrorKindsByCommand :
    (Instr.enclen.fields.capacity = true ∧ exec .enclen State.reset = .next (after .enclen State.reset)) ∧
    (exec .decode (holding (ascii "U") 1) = .next (after .decode (holding (ascii "U") 1)) ∧
      (after .decode (holding (ascii "U") 1)).err.errKind = 2) ∧
    (exec .decodeP (prefixed [] 0) = .next (after .decodeP (prefixed [] 0)) ∧
      (after .decodeP (prefixed [] 0)).err.errKind = 3) ∧
    (exec .encodeCheck (versioned 32 [] 8) = .next (after .encodeCheck (versioned 32 [] 8)) ∧
      (after .encodeCheck (versioned 32 [] 8)).err.errKind = 4) ∧
    (exec .decodeCheck (holding (ascii "0") 1) = .next (after .decodeCheck (holding (ascii "0") 1)) ∧
      (after .decodeCheck (holding (ascii "0") 1)).err.errKind = 5) ∧
    (exec .decodeCheck (holding (ascii "00000") 5) = .next (after .decodeCheck (holding (ascii "00000") 5)) ∧
      (after .decodeCheck (holding (ascii "00000") 5)).err.errKind = 6) ∧
    (exec .decodeCheck (holding (ascii "0Z") 2) = .next (after .decodeCheck (holding (ascii "0Z") 2)) ∧
      (after .decodeCheck (holding (ascii "0Z") 2)).err.faultCause = 2) :=
  ⟨⟨rfl, exec_after _ _⟩, ⟨exec_after _ _, by decide +kernel⟩, ⟨exec_after _ _, by decide +kernel⟩,
    ⟨exec_after _ _, by decide +kernel⟩, ⟨exec_after _ _, by decide +kernel⟩, ⟨exec_after _ _, by decide +kernel⟩,
    ⟨exec_after _ _, by decide +kernel⟩⟩

theorem witness_InternalInvariantIsNeverRaised : ∃ t, exec .encode (holding [255] 2) = .next t :=
  ⟨_, exec_after _ _⟩

theorem witness_CommandFrame : ∃ t, exec .encode (holding [1, 2, 3] 5) = .next t := ⟨_, exec_after _ _⟩

/-- Each of the four cases: a capacity command, BufferTooSmall, LengthOutOfRange; IllegalCommand is no command's outcome, its
case is `witness_IllegalCommandCompletesAtOnce`'s. -/
theorem witness_DstWhollyKept :
    (exec .declen State.reset = .next (after .declen State.reset) ∧ Instr.declen.fields.capacity = true) ∧
    (exec .encode (holding [1] 1) = .next (after .encode (holding [1] 1)) ∧
      (after .encode (holding [1] 1)).err.errKind = 1) ∧
    (exec .encode (holding [] 513) = .next (after .encode (holding [] 513)) ∧
      (after .encode (holding [] 513)).err.faultCause = 4) :=
  ⟨⟨exec_after _ _, rfl⟩, ⟨exec_after _ _, by decide +kernel⟩, ⟨exec_after _ _, by decide +kernel⟩⟩

/-- Two different states that agree on what ENCODE reads: PREFIX, VERSION and SRC past SRC_LEN differ. -/
theorem witness_OutcomeDependsOnListedOperandsOnly :
    ∃ s u t v : State, s ≠ u ∧ SameOperands .encode s u ∧ exec .encode s = .next t ∧ exec .encode u = .next v :=
  ⟨holding [255] 2, { holding [255] 2 with prefixReg := 0x53, version := 7, src := [(0, 255), (1, 9)] }, _, _,
    by decide, ⟨rfl, by decide, by decide, fun _ => rfl, fun _ => rfl, fun _ => by decide +kernel⟩,
    exec_after _ _, exec_after _ _⟩

/-- The invariant holds in a BUSY state, whose step is the CORE's. -/
theorem witness_StepKeepsInv :
    ∃ s t : State, s.Inv ∧ s.isBusy = true ∧ step s = .next t := by
  refine ⟨running .encode [255] 2, after .encode (running .encode [255] 2), ⟨?_, ?_, ?_, ⟨?_, ?_, ?_, ?_, ?_, ?_, ?_⟩,
    ?_, ?_, ?_, ?_, ?_, ?_, ?_, ?_, ?_, ?_⟩, by decide, step_running _ _ _⟩ <;> decide +kernel

/-- A step that is the CORE's, and one that is nobody's. -/
theorem witness_OnlyTheHostChangesSrc :
    (∃ s t : State, step s = .next t ∧ turn s = .core s) ∧
    step State.reset = .next State.reset ∧ turn State.reset = .rest :=
  ⟨⟨running .encode [255] 2, _, step_running _ _ _, turn_running _ _ _⟩, rfl, rfl⟩

theorem witness_ResetValues :
    State.reset.isBusy = false ∧ ∃ s u : State, s = resetInput u ∧ u.isBusy = true :=
  ⟨by decide, _, running .encode [255] 2, rfl, by decide⟩

theorem witness_ResetWhileBusyAbandonsTheCommand :
    (running .encode [255] 2).isBusy = true ∧ 1 < (running .encode [255] 2).capacity ∧
      1 < (running .encode [255] 2).params.dstSize := by decide

/-- Offsets that hold nothing: no multiple of 8, and the first past the map; the last that holds a register is the neighbour. -/
theorem witness_RegisterMapHoles : State.reset.isBusy = false ∧ (0x84 % 8 ≠ 0 ∨ 0x90 ≤ 0x84) ∧ (0x90 % 8 ≠ 0 ∨ 0x90 ≤ 0x90) ∧
    regAt 0x88 = some .errGotValid := by decide

theorem witness_RegisterReads : State.reset.isBusy = false := by decide

/-- The read-only offsets at both ends of their ranges. -/
theorem witness_RegisterWrites : State.reset.isBusy = false ∧ (0x08 = 0x08 ∨ 0x30 ≤ 0x08) ∧ (0x30 = 0x08 ∨ 0x30 ≤ 0x30) ∧
    (0x88 = 0x08 ∨ 0x30 ≤ 0x88) := by decide

theorem witness_BusyHostAccessesChangeNothing :
    (running .encode [255] 2).isBusy = true ∧ HostLine.wr 0x10 7 ≠ .reset ∧ 0x00 ≠ 0x08 := by decide

/-- The last byte of each buffer. -/
theorem witness_HostReadsHaveNoSideEffect :
    State.reset.isBusy = false ∧ 255 < State.reset.sizeOf .src ∧ 511 < State.reset.sizeOf .dst := by decide

theorem witness_HostByteWrite : State.reset.isBusy = false ∧ 255 < State.reset.sizeOf .src ∧
    511 < State.reset.sizeOf .dst := by decide

/-- DONE after a command, and IDLE after reset. -/
theorem witness_WaitLine :
    (∃ s : State, s.isBusy = false ∧ s.script = .wait :: [] ∧ s.isDone = true) ∧
    (∃ s : State, s.isBusy = false ∧ s.script = .wait :: [] ∧ s.isDone = false) :=
  ⟨⟨{ State.reset with status := 0x02, script := [.wait] }, by decide⟩, ⟨{ State.reset with script := [.wait] }, by decide⟩⟩

/-- The first byte past each buffer. -/
theorem witness_HostAccessPastABufferFaults :
    State.reset.isBusy = false ∧ State.reset.sizeOf .src ≤ 256 ∧ State.reset.sizeOf .dst ≤ 512 := by decide

/-- A success; failures in P_ARGS, in P_SCAN, in P_PACK, in P_HEAD, after P_REV and after P_VERIFY (T9, T129, P3, T197, T193,
T195). -/
theorem witness_PhasesFollowTheTable :
    (after .encode (holding [255] 2)).err.errKind = 0 ∧
    (after .encode (holding [1, 2, 3, 4, 5] 2)).err.errKind = 1 ∧
    ((after .decode (holding [0x80] 1)).err.errKind = 2 ∧ (after .decode (holding [0x80] 1)).err.errChar = 0x80) ∧
    ((after .decode (holding (ascii "2M!HA") 5)).err.errKind = 2 ∧
      (after .decode (holding (ascii "2M!HA") 5)).err.errChar = 0x21) ∧
    (after .decodeCheck (holding (ascii "U0") 2)).err.errKind = 2 ∧
    (after .decodeCheck (holding (ascii "0Z") 2)).err.faultCause = 2 ∧
    (after .decodeCheck (holding (ascii "00000") 5)).err.errKind = 6 := by decide +kernel

end Sys2Proof.Tests
end

section
/-! The outcome of a command is a function of its listed operands (R6, R43, R83): two runs that agree on them take the same
branch at every test. A failure's outcome is the error alone and a success's the result bytes and the version alone, whatever
the two states hold besides. -/

namespace Sys2Proof.Machine

/-! ### Two completed commands -/

/-- Two completed commands show the HOST the same STATUS, results and error record. -/
structure SameRegisters (t v : State) : Prop where
  status        : t.status = v.status
  resultLen     : t.resultLen = v.resultLen
  resultVersion : t.resultVersion = v.resultVersion
  err           : t.err = v.err

/-- Two completed buffer commands moreover hold the same result in DST[0..RESULT_LEN). -/
structure SameOutcome (t v : State) : Prop where
  registers   : SameRegisters t v
  resultBytes : ∀ j, j < t.resultLen.toNat → readByte .dst j t = readByte .dst j v

/-- The result bytes of a success, for a result of any length: DST_CAP bounds only what is overwritten behind them (R67). -/
theorem readByte_dst_succeed (result : List Byte) (version : BitVec 5) (p : State) {j : Nat} (hj : j < result.length) :
    readByte .dst j (succeed result version p) = result[j] := by
  calc readByte .dst j (succeed result version p)
      = readByte .dst j (scratch result.length p.capacity (writeBytes .dst 0 result p)) :=
        readByte_dst_congr rfl rfl j
    _ = readByte .dst j (writeBytes .dst 0 result p) := readByte_scratch_of_out (Or.inl hj)
    _ = result[j] := by simp [readByte_writeBytes_dst, hj]

theorem sameRegisters_finishWith {p q : State} (he : p.err = q.err) (len : Nat) (version : BitVec 5) :
    SameRegisters (finishWith len version p) (finishWith len version q) :=
  ⟨by simp [he], rfl, rfl, by simp [he]⟩

/-- A failure's outcome is its error; it has no result bytes. -/
theorem sameOutcome_raise (e : CommandError) (p q : State) : SameOutcome (raise e p) (raise e q) where
  registers := ⟨rfl, rfl, rfl, rfl⟩
  resultBytes := by simp

/-- A success's outcome is its result and version, the error record being the one the command began with. -/
theorem sameOutcome_succeed {p q : State} (he : p.err = q.err) (result : List Byte) (version : BitVec 5) :
    SameOutcome (succeed result version p) (succeed result version q) where
  registers := ⟨by simp [he], rfl, rfl, by simp [he]⟩
  resultBytes j hj := by
    have hlen : j < result.length := by
      rw [succeed_resultLen, BitVec.toNat_ofNat] at hj
      exact hj.trans_le (Nat.mod_le _ _)
    rw [readByte_dst_succeed _ _ _ hlen, readByte_dst_succeed _ _ _ hlen]

/-! ### Two runs under way -/

/-- Two runs of a buffer command that have read the same so far: the operands every buffer command reads agree (R83), and so do
the error records. -/
structure Aligned (p q : State) : Prop where
  inputLen : p.inputLen = q.inputLen
  capacity : p.capacity = q.capacity
  params   : p.params = q.params
  srcBytes : ∀ j, j < q.inputLen → readByte .src j p = readByte .src j q
  err      : p.err = q.err

theorem SameOperands.inputLen_eq {i : Instr} {s u : State} (h : SameOperands i s u) : s.inputLen = u.inputLen := by
  rw [State.inputLen, State.inputLen, h.srcLen]

/-- The listed operands of a buffer command align its two runs from their issue on. -/
theorem SameOperands.aligned {i : Instr} {s u : State} (h : SameOperands i s u) (hi : i.fields.capacity = false) :
    Aligned (beginCommand s) (beginCommand u) where
  inputLen := by simp [h.inputLen_eq]
  capacity := by simp [State.capacity, h.dstCap hi]
  params := by simp [h.params hi]
  srcBytes j hj := by
    simp only [beginCommand_inputLen, beginCommand_readByte_src] at hj ⊢
    exact h.srcBytes hi j (h.inputLen_eq ▸ hj)
  err := by simp

theorem SameOperands.prefixByte {i : Instr} {s u : State} (h : SameOperands i s u) (hi : i.fields.prefixed = true) :
    (beginCommand s).prefixByte = (beginCommand u).prefixByte := by
  simp [State.prefixByte, h.prefixReg hi]

section
variable {p q : State} (h : Aligned p q)
include h

theorem Aligned.lengthOutOfRange : p.lengthOutOfRange = q.lengthOutOfRange := by
  simp only [State.lengthOutOfRange, h.params, h.inputLen, h.capacity]

/-- A range of SRC within SRC_LEN is the same sequence of bytes. -/
theorem Aligned.srcRange {start len : Nat} (hr : start + len ≤ q.inputLen) :
    srcRange start len p = srcRange start len q :=
  List.map_congr_left fun j hj => h.srcBytes j (by have := List.mem_range'_1.1 hj; omega)

theorem Aligned.prefixError (hpre : p.prefixByte = q.prefixByte) : prefixError p = prefixError q := by
  simp only [Machine.prefixError, h.inputLen, hpre]
  by_cases h0 : q.inputLen = 0
  · simp only [if_pos h0]
  · rw [h.srcBytes 0 (Nat.pos_of_ne_zero h0)]

/-- The range test, the first of every buffer command (R208 cause 4), answers both runs alike. -/
theorem Aligned.afterRangeTest {a b : State} (hab : SameOutcome a b) :
    SameOutcome (if p.lengthOutOfRange then raise (.faulted .lengthOutOfRange) p else a)
      (if q.lengthOutOfRange then raise (.faulted .lengthOutOfRange) q else b) := by
  rw [h.lengthOutOfRange]
  split
  · exact sameOutcome_raise _ _ _
  · exact hab

/-- So does a capacity test (R202). -/
theorem Aligned.afterCapacityTest (min : Nat) {a b : State} (hab : SameOutcome a b) :
    SameOutcome (if p.capacity < min then raise (.bufferTooSmall min p.capacity) p else a)
      (if q.capacity < min then raise (.bufferTooSmall min q.capacity) q else b) := by
  rw [h.capacity]
  split
  · exact sameOutcome_raise _ _ _
  · exact hab

end

/-! ### The paths of the buffer commands -/

/-- An encode run reads no state: its outcome depends on `head`, the input and DST_CAP. -/
theorem sameOutcome_encodeInto {p q : State} (hc : p.capacity = q.capacity) (he : p.err = q.err)
    (head input : List Byte) : SameOutcome (encodeInto head input p) (encodeInto head input q) := by
  simp only [encodeInto, engineRun_load_capacity, hc]
  split
  · exact sameOutcome_raise _ _ _
  · exact sameOutcome_succeed (by simp [he]) _ _

theorem sameOutcome_encodeCheckInto {p q : State} (h : Aligned p q) (hv : p.version = q.version) (head : List Byte) :
    SameOutcome (encodeCheckInto head p) (encodeCheckInto head q) := by
  have hsrc := h.srcRange (start := 0) (len := q.inputLen) (by omega)
  simp only [encodeCheckInto, h.inputLen, h.capacity, hv, hsrc]
  split
  · exact sameOutcome_raise _ _ _
  split
  · exact sameOutcome_raise _ _ _
  · exact sameOutcome_encodeInto (by simp [h.capacity]) (by simp [h.err]) _ _

theorem sameOutcome_decodeSlice {p q : State} (h : Aligned p q) {off : Nat} (hoff : off ≤ q.inputLen) :
    SameOutcome (decodeSlice off p) (decodeSlice off q) := by
  have hsrc := h.srcRange (start := off) (len := q.inputLen - off) (by omega)
  simp only [decodeSlice, h.inputLen, h.capacity, hsrc, engineRun_load_capacity]
  split
  · exact sameOutcome_raise _ _ _
  cases decodeRun (srcRange off (q.inputLen - off) q) with
  | bad b => exact sameOutcome_raise _ _ _
  | ok r =>
    dsimp only
    split
    · exact sameOutcome_raise _ _ _
    · exact sameOutcome_succeed (by simp [h.err]) _ _

/-- The comparison reads the unit and its version alone (R163). The error records are rewritten by name: compared by
evaluation, they would make the kernel run the SHA-256 unit. -/
theorem sameOutcome_verifyUnit {p q : State} (he : p.err = q.err) (unit : List Byte) (ver : BitVec 8) :
    SameOutcome (verifyUnit unit ver p) (verifyUnit unit ver q) := by
  rw [verifyUnit, verifyUnit]
  dsimp only
  split
  · exact sameOutcome_raise _ _ _
  split
  · exact sameOutcome_raise _ _ _
  · refine sameOutcome_succeed ?_ _ _
    rw [setChk_err, setChk_err, goThrough_err, goThrough_err, he]

/-- The version symbol SRC[off] is read only after the length test has shown it to be input (R163). -/
theorem sameOutcome_decodeCheckSlice {p q : State} (h : Aligned p q) (off : Nat) :
    SameOutcome (decodeCheckSlice off p) (decodeCheckSlice off q) := by
  simp only [decodeCheckSlice, h.inputLen, h.capacity]
  split
  · exact sameOutcome_raise _ _ _
  split
  · exact sameOutcome_raise _ _ _
  have hver : readByte .src off p = readByte .src off q := h.srcBytes off (by omega)
  have hsrc := h.srcRange (start := off + 1) (len := q.inputLen - off - 1) (by omega)
  simp only [goThrough_readByte_src, setVer_srcRange, goThrough_srcRange, engineRun_load_capacity, setVer_capacity,
    goThrough_capacity, hver, hsrc, h.capacity]
  cases symbolValue (readByte .src off q) with
  | none => exact sameOutcome_raise _ _ _
  | some k =>
    dsimp only
    split
    · exact sameOutcome_raise _ _ _
    cases decodeRun (srcRange (off + 1) (q.inputLen - off - 1) q) with
    | bad b => exact sameOutcome_raise _ _ _
    | ok r =>
      dsimp only
      split
      · exact sameOutcome_raise _ _ _
      · exact sameOutcome_verifyUnit (by simp [h.err]) _ _

/-- A prefixed decode command goes on only with SRC[0] in its input (R204). -/
theorem inputLen_pos_of_prefixError_eq_none {q : State} (h : prefixError q = none) : 1 ≤ q.inputLen := by
  rcases prefixError_cases q with ⟨-, he⟩ | ⟨h0, -⟩ | ⟨h0, -⟩
  · simp [he] at h
  · omega
  · omega

/-! ### The commands -/

/-- Two runs of a capacity command on the same SRC_LEN end with the same registers. -/
theorem sameRegisters_of_sameOperands {i : Instr} (hi : i.fields.capacity = true) {s u t v : State}
    (h : SameOperands i s u) (hs : exec i s = .next t) (hu : exec i u = .next v) : SameRegisters t v := by
  have he : (beginCommand s).err = (beginCommand u).err := by simp
  have hlen := h.inputLen_eq
  cases i with
  | enclen | declen | encchklen | decchklen =>
    cases hs; cases hu
    rw [hlen]
    exact sameRegisters_finishWith he _ _
  | encode | decode | encodeCheck | decodeCheck | encodeP | decodeP | encodeCheckP | decodeCheckP => cases hi

/-- Two runs of a buffer command on the same operands have the same outcome. -/
theorem sameOutcome_of_sameOperands {i : Instr} (hi : i.fields.capacity = false) {s u t v : State}
    (h : SameOperands i s u) (hs : exec i s = .next t) (hu : exec i u = .next v) : SameOutcome t v := by
  have ha := h.aligned hi
  cases i with
  | enclen | declen | encchklen | decchklen => cases hi
  | encode =>
    cases hs; cases hu
    refine ha.afterRangeTest ?_
    rw [ha.inputLen, ha.srcRange (by omega)]
    exact ha.afterCapacityTest _ (sameOutcome_encodeInto ha.capacity ha.err _ _)
  | encodeP =>
    cases hs; cases hu
    refine ha.afterRangeTest ?_
    rw [ha.inputLen, h.prefixByte rfl, ha.srcRange (by omega)]
    exact ha.afterCapacityTest _ (sameOutcome_encodeInto (by simp [ha.capacity]) (by simp) _ _)
  | encodeCheck =>
    cases hs; cases hu
    exact ha.afterRangeTest (sameOutcome_encodeCheckInto ha (h.version (Or.inl rfl)) _)
  | encodeCheckP =>
    cases hs; cases hu
    refine ha.afterRangeTest ?_
    rw [h.prefixByte rfl]
    exact sameOutcome_encodeCheckInto ha (h.version (Or.inr rfl)) _
  | decode =>
    cases hs; cases hu
    exact ha.afterRangeTest (sameOutcome_decodeSlice ha (Nat.zero_le _))
  | decodeCheck =>
    cases hs; cases hu
    exact ha.afterRangeTest (sameOutcome_decodeCheckSlice ha 0)
  | decodeP =>
    cases hs; cases hu
    refine ha.afterRangeTest ?_
    rw [ha.prefixError (h.prefixByte rfl)]
    cases hpre : prefixError (beginCommand u) with
    | some e => exact sameOutcome_raise _ _ _
    | none => exact sameOutcome_decodeSlice ha (inputLen_pos_of_prefixError_eq_none hpre)
  | decodeCheckP =>
    cases hs; cases hu
    refine ha.afterRangeTest ?_
    rw [ha.prefixError (h.prefixByte rfl)]
    cases prefixError (beginCommand u) with
    | some e => exact sameOutcome_raise _ _ _
    | none => exact sameOutcome_decodeCheckSlice ha 1

/-- Settles O45: a buffer command's two runs take the same branches to the same error or result, and a capacity command's
result is a function of SRC_LEN. -/
theorem outcomeDependsOnListedOperandsOnly : Obligations.OutcomeDependsOnListedOperandsOnly := by
  unfold Obligations.OutcomeDependsOnListedOperandsOnly
  intro i s u t v h hs hu
  have hregs : SameRegisters t v := by
    cases hi : i.fields.capacity with
    | false => exact (sameOutcome_of_sameOperands hi h hs hu).registers
    | true => exact sameRegisters_of_sameOperands hi h hs hu
  exact ⟨hregs.status, hregs.resultLen, hregs.resultVersion, hregs.err,
    fun hi => (sameOutcome_of_sameOperands hi h hs hu).resultBytes⟩

end Sys2Proof.Machine
end

section
/-! One step of the block (R5, R68): whose move it is, and what each agent's move does to the state. The HOST's acts are a
register write, a byte write, a reset, or nothing the block sees; the CORE's step is one completion of its command. -/

namespace Sys2Proof.Machine

/-! ### Whose move it is -/

/-- The agent that moves sees the state itself, or the state after the draw that ordered the two agents (log entry 4). -/
def Moves (s u : State) : Prop := u = s ∨ u = drawn s

/-- The move is the CORE's, while BUSY, or the HOST's, or nobody's. -/
theorem turn_cases (s : State) :
    (∃ u, Moves s u ∧ turn s = .core u) ∨ (∃ line rest u, Moves s u ∧ turn s = .host line rest u) ∨ turn s = .rest := by
  cases hscript : s.script with
  | nil =>
    cases hbusy : s.isBusy with
    | true => exact .inl ⟨s, .inl rfl, by simp [turn, hscript, hbusy]⟩
    | false => exact .inr (.inr (by simp [turn, hscript, hbusy]))
  | cons line rest =>
    cases hbusy : s.isBusy with
    | false => exact .inr (.inl ⟨line, rest, s, .inl rfl, by simp [turn, hscript, hbusy]⟩)
    | true =>
      by_cases hwaits : hostWaits (line :: rest) = true
      · exact .inl ⟨s, .inl rfl, by simp [turn, hscript, hbusy, hwaits]⟩
      by_cases hfirst : Config.coreFirst s.draws = true
      · exact .inl ⟨drawn s, .inr rfl, by simp [turn, hscript, hbusy, hwaits, hfirst]⟩
      · exact .inr (.inl ⟨line, rest, drawn s, .inr rfl, by simp [turn, hscript, hbusy, hwaits, hfirst]⟩)

/-- A step is that agent's move. -/
theorem step_cases (s : State) :
    (∃ u, Moves s u ∧ turn s = .core u ∧ step s = coreStep u) ∨
    (∃ line rest u, Moves s u ∧ turn s = .host line rest u ∧ step s = hostAct line rest u) ∨
    (turn s = .rest ∧ step s = .next s) := by
  obtain ⟨u, hu, ht⟩ | ⟨line, rest, u, hu, ht⟩ | ht := turn_cases s
  · exact .inl ⟨u, hu, ht, by rw [step, ht]⟩
  · exact .inr (.inl ⟨line, rest, u, hu, ht, by rw [step, ht]⟩)
  · exact .inr (.inr ⟨ht, by rw [step, ht]⟩)

/-- While BUSY with the HOST waiting the step is the command's (R68). -/
theorem step_of_busy_of_hostWaits {s : State} (hbusy : s.isBusy = true) (hwaits : hostWaits s.script = true) :
    step s = coreStep s := by
  have hturn : turn s = .core s := by
    cases hscript : s.script with
    | nil => simp [turn, hscript, hbusy]
    | cons line rest =>
      rw [hscript] at hwaits
      simp [turn, hscript, hbusy, hwaits]
  rw [step, hturn]

/-- While not BUSY the step is the act of the script's first line (R218). -/
theorem step_of_not_busy {s : State} {line : HostLine} {rest : List HostLine} (hbusy : s.isBusy = false)
    (hscript : s.script = line :: rest) : step s = hostAct line rest s := by
  simp [step, turn, hscript, hbusy]

/-! ### The CORE's step -/

/-- The CORE's step completes a command, an illegal byte's being the error completion of R82. -/
theorem coreStep_completion (s : State) : ∃ t, coreStep s = .next t ∧ Completion s t := by
  rw [coreStep]
  cases fetch s with
  | ok i rest => exact exec_completion i s
  | rejected e => exact ⟨_, rfl, .failed _ _ (ready_beginCommand s) (.inl rfl)⟩

/-- A completed command leaves the operands, SRC and the parameters (R21 to R25, R35). -/
theorem Completion.operandsKept {s t : State} (h : Completion s t) : OperandsKept s t := by
  cases h with
  | failed e u hu hd => exact (hu.underWay.raise e).kept
  | succeeded result version u hu hr hd => exact (hu.underWay.succeed hr version).kept
  | computed len u hu =>
    obtain ⟨hcmd, hsrcLen, hdstCap, hversion, hprefixReg, hsrc, hparams, hscript, hreads, hepoch⟩ := hu.underWay.kept
    exact ⟨hcmd, hsrcLen, hdstCap, hversion, hprefixReg, hsrc, hparams, hscript, hreads, hepoch⟩

/-! ### The HOST's act -/

/-- What an act of the HOST does: the script advances, and beside that the block sees nothing (a read, a wait, a line with
nothing left to move), a register write, a write of a byte that exists or is dropped, or the reset input. -/
inductive HostEffect (s : State) : State → Prop where
  | unseen (script : List HostLine) (reads : List Word64) (draws : Nat) :
      HostEffect s { s with script := script, reads := reads, draws := draws }
  | regWritten (script : List HostLine) (offset : Nat) (value : Word64) :
      HostEffect s (regWrite offset value { s with script := script })
  | byteWritten (script : List HostLine) (sp : Space) (index : Nat) (v : Byte)
      (h : s.isBusy = true ∨ index < s.sizeOf sp) : HostEffect s (byteWrite sp index v { s with script := script })
  | reset (script : List HostLine) : HostEffect s (resetInput { s with script := script })

theorem hostAct_effect {line : HostLine} {rest : List HostLine} {s t : State} (h : hostAct line rest s = .next t) :
    HostEffect s t := by
  cases line with
  | wr offset value => cases h; exact .regWritten ..
  | cmd i => cases h; exact .regWritten ..
  | wait =>
    cases h
    split
    · exact .unseen ..
    · exact .unseen s.script s.reads s.draws
  | rd offset => cases h; exact .unseen ..
  | reset => cases h; exact .reset ..
  | wrb sp index bytes =>
    cases bytes with
    | nil => cases h; exact .unseen rest s.reads s.draws
    | cons b bs =>
      rw [hostAct] at h
      split at h
      · cases h; exact .byteWritten _ _ _ _ ‹_›
      · cases h
  | rdb sp index count =>
    cases count with
    | zero => cases h; exact .unseen rest s.reads s.draws
    | succ count =>
      rw [hostAct] at h
      split at h
      · cases h; exact .unseen ..
      · cases h

/-- A pulse of the reset input sets every register, as `resetRegisters` does; the buffers' bytes and the counters of free values
are its only choice (R230, R231). -/
theorem resetInput_eq (s : State) : ∃ src dst draws epoch,
    resetInput s = { resetRegisters s with src := src, dst := dst, draws := draws, epoch := epoch } := by
  rw [resetInput]
  split
  · exact ⟨_, _, _, s.epoch, rfl⟩
  · exact ⟨_, _, s.draws, _, rfl⟩

/-- A write of an offset stores a register, or is dropped: while BUSY and where nothing is held (R61, R68). -/
theorem regWrite_cases (offset : Nat) (value : Word64) (s : State) :
    regWrite offset value s = s ∨ ∃ r, regWrite offset value s = storeReg r value s := by
  rw [regWrite]
  split
  · exact .inl rfl
  · split
    · exact .inr ⟨_, rfl⟩
    · exact .inl rfl

theorem regWrite_of_not_busy {s : State} (hbusy : s.isBusy = false) {offset : Nat} {r : Reg} (hreg : regAt offset = some r)
    (value : Word64) : regWrite offset value s = storeReg r value s := by
  simp [regWrite, hbusy, hreg]

end Sys2Proof.Machine
end

section
/-! The invariant of the machine. It has two halves, the registers and the buffers; a command's completion, an issue and a reset
set the registers anew, and every other act of the HOST leaves them. -/

namespace Sys2Proof.Machine

/-! ### The buffers -/

/-- The half of the invariant that speaks of the buffers: legal sizes, and both memories canonical within them (R4, R60). -/
structure BuffersFit (s : State) : Prop where
  params   : s.params.wellFormed = true
  srcForm  : s.src.wf
  dstForm  : s.dst.wf
  srcBelow : s.src.below s.params.srcSize
  dstBelow : s.dst.below s.params.dstSize

theorem State.Inv.buffersFit {s : State} (h : s.Inv) : BuffersFit s :=
  ⟨h.params, h.srcForm, h.dstForm, h.srcBelow, h.dstBelow⟩

namespace BuffersFit

variable {s t : State}

theorem congr (h : BuffersFit s) (hparams : t.params = s.params) (hsrc : t.src = s.src) (hdst : t.dst = s.dst) :
    BuffersFit t :=
  ⟨hparams ▸ h.params, hsrc ▸ h.srcForm, hdst ▸ h.dstForm, hparams ▸ hsrc ▸ h.srcBelow, hparams ▸ hdst ▸ h.dstBelow⟩

/-- A write of bytes that exist. -/
theorem writeBytes (h : BuffersFit s) {sp : Space} {start : Nat} {bs : List Byte}
    (hin : start + bs.length ≤ s.sizeOf sp) : BuffersFit (writeBytes sp start bs s) := by
  cases sp with
  | src => exact ⟨h.params, wf_putRange h.srcForm _ _, h.dstForm, below_putRange h.srcBelow hin, h.dstBelow⟩
  | dst => exact ⟨h.params, h.srcForm, wf_putRange h.dstForm _ _, h.srcBelow, below_putRange h.dstBelow hin⟩

/-- A draw of free bytes that exist. -/
theorem scratch (h : BuffersFit s) {start stop : Nat} (hstart : start ≤ s.params.dstSize)
    (hstop : stop ≤ s.params.dstSize) : BuffersFit (scratch start stop s) := by
  have hin : start + (leftovers s.draws start (stop - start)).length ≤ s.sizeOf .dst := by
    rw [leftovers_length, State.sizeOf]
    omega
  exact (h.writeBytes (sp := .dst) hin).congr rfl rfl rfl

theorem raise (h : BuffersFit s) {e : CommandError} (hd : e.keepsDst = true ∨ s.capacity ≤ s.params.dstSize) :
    BuffersFit (raise e s) := by
  have hdst : BuffersFit (dstAfterError e s) := by
    rw [dstAfterError]
    split
    · exact h
    · rename_i hk
      exact h.scratch (Nat.zero_le _) (hd.resolve_left hk)
  exact hdst.congr rfl rfl rfl

theorem succeed (h : BuffersFit s) {result : List Byte} (hr : result.length ≤ s.capacity)
    (hd : s.capacity ≤ s.params.dstSize) (version : BitVec 5) : BuffersFit (succeed result version s) := by
  have hw : BuffersFit (Machine.writeBytes .dst 0 result s) :=
    h.writeBytes (by rw [State.sizeOf]; omega)
  exact (hw.scratch (stop := s.capacity) (hr.trans hd) hd).congr rfl rfl rfl

theorem resetInput (h : BuffersFit s) : BuffersFit (resetInput s) := by
  rw [Machine.resetInput]
  split
  · exact (h.scratch (Nat.zero_le _) (Nat.min_le_right _ _)).congr rfl rfl rfl
  · exact ⟨h.params, wf_nil, wf_nil, by simp, by simp⟩

end BuffersFit

/-! ### The registers -/

/-- Every error record a failure writes is consistent (R201 to R208). -/
theorem CommandError.record_consistent (e : CommandError) : e.record.Consistent := by
  rcases e with _ | _ | ⟨_, _ | _⟩ | _ | _ | _ | ⟨_ | _ | _ | _⟩ <;> constructor <;>
    simp [CommandError.record, ErrorRecord.zero, FaultCause.code]

theorem ErrorRecord.zero_consistent : ErrorRecord.zero.Consistent := by
  constructor <;> simp [ErrorRecord.zero]

/-- RESULT_VERSION and VER hold a 5-bit version (R28, R39). -/
theorem version_setWidth_lt (version : BitVec 5) : (version.setWidth 8).toNat < 32 := by
  rw [BitVec.toNat_setWidth_of_le (by omega)]
  exact version.isLt

variable {s t : State}

/-- The registers of a state that has begun a command or been reset: no result, no error, nothing held in CARRY. -/
theorem inv_of_cleared (hb : BuffersFit t)
    (hphase : (t.status = statusIdle ∧ t.work.phase = .idle) ∨ (t.status = statusBusy ∧ t.work.phase ≠ .idle))
    (herr : t.err = ErrorRecord.zero) (hlen : t.resultLen = 0) (hversion : t.resultVersion = 0)
    (hcarry : t.work.carry = 0) (hnbits : t.work.nbits = 0) : t.Inv where
  status := hphase.elim (fun h => .inl h.1) (fun h => .inr (.inl h.1))
  busy := by
    obtain ⟨hs, hp⟩ | ⟨hs, hp⟩ := hphase
    · simp [State.isBusy, hs, hp, stateField, statusIdle]
    · simp [State.isBusy, hs, hp, stateField, statusBusy]
  flag := by
    obtain ⟨hs, -⟩ | ⟨hs, -⟩ := hphase <;> rw [hs, herr] <;> decide
  record := herr ▸ ErrorRecord.zero_consistent
  notDone := fun _ => ⟨hlen, hversion, herr⟩
  noResult := fun _ => ⟨hlen, hversion⟩
  versionLow := by simp [hversion]
  carry := by simp [hcarry]
  nbits := by simp [hnbits]
  params := hb.params
  srcForm := hb.srcForm
  dstForm := hb.dstForm
  srcBelow := hb.srcBelow
  dstBelow := hb.dstBelow

/-- The registers of a completed command: STATUS follows ERR_KIND (R44), and PHASE is P_IDLE. -/
theorem inv_of_completed (hb : BuffersFit t) (hstatus : t.status = completionStatus t.err.errKind)
    (hphase : t.work.phase = .idle) (hrecord : t.err.Consistent)
    (hresult : t.err.errKind ≠ 0 → t.resultLen = 0 ∧ t.resultVersion = 0) (hversion : t.resultVersion.toNat < 32)
    (hcarry : t.work.carry.toNat < 2 ^ t.work.nbits.toNat) (hnbits : t.work.nbits.toNat ≤ 12) : t.Inv := by
  have hdone : (t.status = 0x02 ∧ t.err.errKind = 0) ∨ (t.status = 0x06 ∧ t.err.errKind ≠ 0) := by
    by_cases h : t.err.errKind = 0
    · exact .inl ⟨by rw [hstatus, completionStatus, if_pos h], h⟩
    · exact .inr ⟨by rw [hstatus, completionStatus, if_neg h], h⟩
  refine ⟨?status, ?busy, ?flag, hrecord, ?notDone, hresult, hversion, hcarry, hnbits,
    hb.params, hb.srcForm, hb.dstForm, hb.srcBelow, hb.dstBelow⟩
  case status => exact hdone.elim (fun h => .inr (.inr (.inl h.1))) (fun h => .inr (.inr (.inr h.1)))
  case busy =>
    obtain ⟨hs, -⟩ | ⟨hs, -⟩ := hdone <;> simp [State.isBusy, stateField, hs, hphase]
  case flag =>
    obtain ⟨hs, hk⟩ | ⟨hs, hk⟩ := hdone
    · simp [errFlag, hs, hk]
    · exact iff_of_true (by rw [hs]; decide) hk
  case notDone =>
    obtain ⟨hs, -⟩ | ⟨hs, -⟩ := hdone <;> simp [State.isDone, stateField, hs]

/-- The invariant reads no register but STATUS, the results, the error record and the working registers. -/
theorem State.Inv.of_registers (h : s.Inv) (hb : BuffersFit t) (hstatus : t.status = s.status)
    (hlen : t.resultLen = s.resultLen) (hversion : t.resultVersion = s.resultVersion) (herr : t.err = s.err)
    (hwork : t.work = s.work) : t.Inv where
  status := hstatus ▸ h.status
  busy := by simpa [State.isBusy, hstatus, hwork] using h.busy
  flag := by simpa [hstatus, herr] using h.flag
  record := herr ▸ h.record
  notDone := by simpa [State.isDone, hstatus, hlen, hversion, herr] using h.notDone
  noResult := by simpa [hlen, hversion, herr] using h.noResult
  versionLow := hversion ▸ h.versionLow
  carry := hwork ▸ h.carry
  nbits := hwork ▸ h.nbits
  params := hb.params
  srcForm := hb.srcForm
  dstForm := hb.dstForm
  srcBelow := hb.srcBelow
  dstBelow := hb.dstBelow

/-! ### The moves of the two agents -/

/-- A command that completes leaves the invariant, whatever the registers held when it began. -/
theorem Completion.inv (h : Completion s t) (hs : BuffersFit s) : t.Inv := by
  have fit {u : State} (hu : Ready s u) : BuffersFit u :=
    hs.congr hu.underWay.kept.params hu.underWay.kept.src hu.underWay.dst
  cases h with
  | failed e u hu hd =>
    have hdu : e.keepsDst = true ∨ u.capacity ≤ u.params.dstSize := by
      rwa [hu.underWay.capacity, hu.underWay.kept.params]
    exact inv_of_completed ((fit hu).raise hdu) (by simp) (by simp) (by simpa using e.record_consistent) (by simp)
      (by simp) (by simpa using hu.carry) (by simpa using hu.nbits)
  | succeeded result version u hu hr hd =>
    have hbuffers : BuffersFit (succeed result version u) :=
      (fit hu).succeed (by rwa [hu.underWay.capacity]) (by rwa [hu.underWay.capacity, hu.underWay.kept.params]) version
    exact inv_of_completed hbuffers (by simp) (by simp) (by simpa [hu.underWay.err] using ErrorRecord.zero_consistent)
      (by simp [hu.underWay.err, ErrorRecord.zero]) (version_setWidth_lt version) (by simpa using hu.carry) (by simpa using hu.nbits)
  | computed len u hu =>
    exact inv_of_completed ((fit hu).congr rfl rfl rfl) (by simp) (by simp)
      (by simpa [hu.underWay.err] using ErrorRecord.zero_consistent) (by simp [hu.underWay.err, ErrorRecord.zero])
      (by simp) (by simpa using hu.carry) (by simpa using hu.nbits)

theorem inv_issue (hs : BuffersFit s) (b : Byte) : (issue b s).Inv :=
  inv_of_cleared (hs.congr rfl rfl rfl) (.inr ⟨rfl, by simp [Working.atIssue]⟩) rfl rfl rfl rfl rfl

theorem inv_resetInput (hs : BuffersFit s) : (resetInput s).Inv := by
  have hb := hs.resetInput
  obtain ⟨src, dst, draws, epoch, h⟩ := resetInput_eq s
  rw [h] at hb ⊢
  exact inv_of_cleared hb (.inl ⟨rfl, rfl⟩) rfl rfl rfl rfl rfl

theorem State.Inv.storeReg (h : s.Inv) (r : Reg) (value : Word64) : (storeReg r value s).Inv := by
  have hb := h.buffersFit
  cases r with
  | cmd => exact inv_issue hb _
  | srcLen | dstCap | version | prefixReg => exact h.of_registers (hb.congr rfl rfl rfl) rfl rfl rfl rfl rfl
  | status | resultLen | resultVersion | errKind | faultCause | errMin | errLen | errIndex | errChar | errVersion
  | errExpected | errGot | errGotValid => exact h

theorem State.Inv.regWrite (h : s.Inv) (offset : Nat) (value : Word64) : (regWrite offset value s).Inv := by
  obtain hw | ⟨r, hw⟩ := regWrite_cases offset value s <;> rw [hw]
  · exact h
  · exact h.storeReg r value

/-- A byte past a buffer is written by no one: the write is dropped, or the byte exists (R60, R68). -/
theorem State.Inv.byteWrite (h : s.Inv) {sp : Space} {index : Nat} (hin : s.isBusy = true ∨ index < s.sizeOf sp)
    (v : Byte) : (byteWrite sp index v s).Inv := by
  rw [Machine.byteWrite]
  split
  · exact h
  · rename_i hbusy
    have hindex : index + [v].length ≤ s.sizeOf sp := hin.resolve_left hbusy
    exact h.of_registers (h.buffersFit.writeBytes hindex) (by simp) (by simp) (by simp) (by simp) (by simp)

theorem HostEffect.inv (h : HostEffect s t) (hs : s.Inv) : t.Inv := by
  have scripted (script : List HostLine) : State.Inv { s with script := script } :=
    hs.of_registers (hs.buffersFit.congr rfl rfl rfl) rfl rfl rfl rfl rfl
  cases h with
  | unseen script reads draws => exact hs.of_registers (hs.buffersFit.congr rfl rfl rfl) rfl rfl rfl rfl rfl
  | regWritten script offset value => exact (scripted script).regWrite offset value
  | byteWritten script sp index v hin => exact (scripted script).byteWrite (by cases sp <;> exact hin) v
  | reset script => exact inv_resetInput (scripted script).buffersFit

theorem State.Inv.moves {u : State} (h : s.Inv) (hu : Moves s u) : u.Inv := by
  obtain rfl | rfl := hu
  · exact h
  · exact h.of_registers (h.buffersFit.congr rfl rfl rfl) rfl rfl rfl rfl rfl

/-- Settles O46: a command's completion and a reset set the registers anew, an issue clears them, and any other act of the HOST
leaves them and writes bytes that exist alone. -/
theorem stepKeepsInv : Obligations.StepKeepsInv := by
  unfold Obligations.StepKeepsInv
  intro s t hs ht
  obtain ⟨u, hu, -, hstep⟩ | ⟨line, rest, u, hu, -, hstep⟩ | ⟨-, hstep⟩ := step_cases s <;> rw [hstep] at ht
  · obtain ⟨t', ht', hcompletion⟩ := coreStep_completion u
    obtain rfl : t' = t := by simpa [ht'] using ht
    exact hcompletion.inv (hs.moves hu).buffersFit
  · exact (hostAct_effect ht).inv (hs.moves hu)
  · cases ht
    exact hs

/-- Settles O47: reset clears every register, and both buffers are empty. -/
theorem resetMeetsInv : Obligations.ResetMeetsInv := by
  unfold Obligations.ResetMeetsInv
  have hb : BuffersFit State.reset := ⟨by decide, wf_nil, wf_nil, by simp [State.reset], by simp [State.reset]⟩
  exact inv_of_cleared hb (.inl ⟨rfl, rfl⟩) rfl rfl rfl rfl rfl

end Sys2Proof.Machine
end

section
/-! What an issue, a register write and a reset leave (R21 to R25, R47, R213, R230), and what no step but the HOST's writes. -/

namespace Sys2Proof.Machine

/-! ### Which steps write what -/

theorem params_storeReg (r : Reg) (value : Word64) (s : State) : (storeReg r value s).params = s.params := by
  cases r <;> rfl

theorem params_resetInput (s : State) : (resetInput s).params = s.params := by
  obtain ⟨src, dst, draws, epoch, h⟩ := resetInput_eq s
  rw [h]
  rfl

theorem HostEffect.params {s t : State} (h : HostEffect s t) : t.params = s.params := by
  cases h with
  | unseen script reads draws => rfl
  | regWritten script offset value =>
    obtain hw | ⟨r, hw⟩ := regWrite_cases offset value { s with script := script } <;> rw [hw]
    rw [params_storeReg]
  | byteWritten script sp index v hin =>
    rw [byteWrite]
    split
    · rfl
    · rw [writeBytes_params]
  | reset script => rw [params_resetInput]

theorem Moves.operandsKept {s u : State} (h : Moves s u) : OperandsKept s u := by
  obtain rfl | rfl := h <;> exact ⟨rfl, rfl, rfl, rfl, rfl, rfl, rfl, rfl, rfl, rfl⟩

/-- Settles O48: the CORE's step is a completion, which keeps the operands; no act of the HOST writes the parameters. -/
theorem onlyTheHostChangesSrc : Obligations.OnlyTheHostChangesSrc := by
  unfold Obligations.OnlyTheHostChangesSrc
  intro s t ht
  obtain ⟨u, hu, -, hstep⟩ | ⟨line, rest, u, hu, hturn, hstep⟩ | ⟨-, hstep⟩ := step_cases s <;> rw [hstep] at ht
  · obtain ⟨t', ht', hcompletion⟩ := coreStep_completion u
    obtain rfl : t' = t := by simpa [ht'] using ht
    have hs := hu.operandsKept
    have hk := hcompletion.operandsKept
    exact ⟨hk.params.trans hs.params, fun _ => ⟨hk.src.trans hs.src, hk.srcLen.trans hs.srcLen, hk.dstCap.trans hs.dstCap,
      hk.version.trans hs.version, hk.prefixReg.trans hs.prefixReg, hk.cmd.trans hs.cmd⟩⟩
  · exact ⟨(hostAct_effect ht).params.trans hu.operandsKept.params, fun hcore => absurd hturn (hcore _ _ _)⟩
  · cases ht
    exact ⟨rfl, fun _ => ⟨rfl, rfl, rfl, rfl, rfl, rfl⟩⟩

/-! ### Issue -/

theorem issue_isBusy (b : Byte) (s : State) : (issue b s).isBusy = true := by
  rw [State.isBusy, issue_status]
  decide

/-- The byte of a command in CMD decodes to it (R81). -/
theorem fetch_of_cmd {s : State} {i : Instr} (h : s.cmd = encodeByte i) : fetch s = .ok i [] := by
  rw [fetch, h]
  cases i <;> decide

theorem coreStep_of_cmd {s : State} {i : Instr} (h : s.cmd = encodeByte i) : coreStep s = exec i s := by
  rw [coreStep, fetch_of_cmd h]

/-- A write of CMD issues its low byte (R21). -/
theorem regWrite_cmd {s : State} (hbusy : s.isBusy = false) (value : Word64) :
    regWrite (regOffset .cmd) value s = issue (value.setWidth 8) s :=
  regWrite_of_not_busy (r := .cmd) hbusy rfl value

/-- Settles O7: the line's write of CMD issues the command, and the step after it is the CORE's. -/
theorem commandLineRunsCommand : Obligations.CommandLineRunsCommand := by
  unfold Obligations.CommandLineRunsCommand
  intro s i rest hbusy hscript hwaits
  have hcmd : regWrite (regOffset .cmd) ((encodeByte i).setWidth 64) { s with script := rest } =
      issue (encodeByte i) { s with script := rest } := by
    rw [regWrite_cmd (s := { s with script := rest }) hbusy, BitVec.setWidth_setWidth_of_le _ (by omega),
      BitVec.setWidth_eq]
  have hissue : step s = .next (issue (encodeByte i) { s with script := rest }) := by
    rw [step_of_not_busy hbusy hscript, hostAct, hcmd]
  have hrun : step (issue (encodeByte i) { s with script := rest }) =
      exec i (issue (encodeByte i) { s with script := rest }) := by
    rw [step_of_busy_of_hostWaits (issue_isBusy _ _) (by simpa using hwaits), coreStep_of_cmd (issue_cmd _ _)]
  exact ⟨_, hissue, rfl, issue_isBusy _ _, rfl, rfl, rfl, rfl, rfl, rfl, hrun⟩

/-- Settles O54: each register is one field of `issue`. -/
theorem issueClearsResultsAndRecord : Obligations.IssueClearsResultsAndRecord := by
  unfold Obligations.IssueClearsResultsAndRecord
  intro b s
  have hdone : (issue b s).doneLine = false := by
    rw [State.doneLine, State.isDone, issue_status]
    decide
  simp [hdone, statusBusy, Working.atIssue, Working.atReset]

/-! ### Register writes -/

/-- The read-only registers stand at STATUS's offset and from RESULT_LEN's on (R61). -/
theorem storeReg_of_readOnly {r : Reg} (h : regOffset r = 0x08 ∨ 0x30 ≤ regOffset r) (value : Word64) (s : State) :
    storeReg r value s = s := by
  cases r with
  | cmd | srcLen | dstCap | version | prefixReg => simp [regOffset] at h
  | status | resultLen | resultVersion | errKind | faultCause | errMin | errLen | errIndex | errChar | errVersion
  | errExpected | errGot | errGotValid => rfl

theorem regOffset_of_regAt {offset : Nat} {r : Reg} (h : regAt offset = some r) : regOffset r = offset := by
  simpa using List.find?_some h

theorem regWrite_of_readOnly {offset : Nat} (h : offset = 0x08 ∨ 0x30 ≤ offset) (value : Word64) (s : State) :
    regWrite offset value s = s := by
  rw [regWrite]
  split
  · rfl
  · split
    · rename_i r hr
      exact storeReg_of_readOnly (by rwa [regOffset_of_regAt hr]) value s
    · rfl

/-- Settles O53: each writable offset holds its register, and the read-only ones drop the write. -/
theorem registerWrites : Obligations.RegisterWrites := by
  unfold Obligations.RegisterWrites
  intro s value hbusy
  have stored {offset : Nat} {r : Reg} (hr : regAt offset = some r) := regWrite_of_not_busy hbusy hr value
  exact ⟨stored (r := .srcLen) rfl, stored (r := .dstCap) rfl, stored (r := .version) (by decide),
    stored (r := .prefixReg) rfl, regWrite_cmd hbusy value, fun _ h => regWrite_of_readOnly h value s⟩

/-! ### Reset -/

/-- A pulse while not BUSY begins a new epoch of unspecified bytes (R230, log entry 12). -/
theorem readByte_resetInput_of_not_busy {s : State} (hbusy : s.isBusy = false) (sp : Space) (i : Nat) :
    readByte sp i (resetInput s) = Config.unwritten sp (s.epoch + 1) i := by
  simp only [resetInput, hbusy]
  cases sp <;> rfl

/-- Settles O49: a pulse sets the registers that `State.reset` sets (R47), and while not BUSY empties both buffers. -/
theorem resetValues : Obligations.ResetValues := by
  unfold Obligations.ResetValues
  refine ⟨fun u sp i hbusy => readByte_resetInput_of_not_busy hbusy sp i, fun s hs => ?_⟩
  have hreset : ∃ u src dst draws epoch,
      s = { resetRegisters u with src := src, dst := dst, draws := draws, epoch := epoch } := by
    obtain rfl | ⟨u, rfl⟩ := hs
    · exact ⟨State.reset, [], [], 0, 0, rfl⟩
    · exact ⟨u, resetInput_eq u⟩
  obtain ⟨u, src, dst, draws, epoch, rfl⟩ := hreset
  exact ⟨rfl, rfl, rfl, rfl, rfl, rfl, rfl, rfl, rfl, rfl, rfl, rfl, rfl, rfl, rfl, rfl, rfl, rfl, rfl, rfl, rfl⟩

end Sys2Proof.Machine
end

section
/-! The phases a command passes (R40; log entry 2). Every path of a command ends with P_FINISH and P_IDLE after a beginning of the
command's working phases: all of them on success, and on a failure as far as the test that raised it. -/

namespace Sys2Proof.Machine

/-! ### The working phases of a command -/

/-- The phases of a successful command before P_FINISH. -/
def workingPhases : Instr → List Phase
  | .enclen | .declen | .encchklen | .decchklen => [.args]
  | .encode => .args :: enginePhases
  | .encodeP => [.args, .head] ++ enginePhases
  | .encodeCheck | .encodeCheckP => [.args, .head, .hash] ++ enginePhases
  | .decode | .decodeP => [.args, .scan] ++ enginePhases
  | .decodeCheck | .decodeCheckP => [.args, .head, .scan] ++ enginePhases ++ [.hash, .verify]

theorem successPhases_eq (i : Instr) : successPhases i = workingPhases i ++ [.finish, .idle] := by
  cases i <;> rfl

theorem head?_workingPhases (i : Instr) : (workingPhases i).head? = some .args := by
  cases i <;> rfl

/-- The working phases advance as the table of R40 says. -/
theorem isChain_workingPhases (i : Instr) : (workingPhases i).IsChain PhaseStep := by
  cases i <;> simp [workingPhases, enginePhases, PhaseStep, phaseLeavesTo]

/-- From each of them a command may leave for P_FINISH. -/
theorem phaseStep_finish_of_mem_workingPhases {i : Instr} {p : Phase} (h : p ∈ workingPhases i) :
    PhaseStep p .finish := by
  refine .inr ⟨rfl, ?_, ?_⟩ <;> rintro rfl <;> cases i <;> revert h <;> decide

/-- Leaving after a beginning of the working phases is a path through the table of R40. -/
theorem isChain_exit {i : Instr} {ps : List Phase} (h : ps <+: workingPhases i) :
    (ps ++ [Phase.finish, .idle]).IsChain PhaseStep := by
  have hps : ps.IsChain PhaseStep := by
    obtain ⟨rest, hrest⟩ := h
    exact (hrest ▸ isChain_workingPhases i).left_of_append
  refine List.isChain_append.2 ⟨hps, by simp [PhaseStep, phaseLeavesTo], ?_⟩
  intro p hp q hq
  obtain rfl : q = .finish := by simpa using hq.symm
  exact phaseStep_finish_of_mem_workingPhases (h.subset (List.mem_of_getLast? hp))

/-! ### How a command ends -/

/-- The phases a failure has passed before P_FINISH: P_ARGS alone for an up-front check; for InvalidCharacter those up to P_HEAD
(the version symbol), P_SCAN (a byte >= 128) or P_PACK (another byte); those up to P_REV for ShortFrame, and all for
ChecksumMismatch. InternalInvariant may come after any. -/
def CommandError.RaisedAfter (i : Instr) (ps : List Phase) : CommandError → Prop
  | .bufferTooSmall _ _ => ps = [.args]
  | .missingPrefix _ _ => ps = [.args]
  | .invalidVersion _ => ps = [.args]
  | .insufficientData _ _ => ps = [.args]
  | .faulted .lengthOutOfRange => ps = [.args]
  | .faulted .illegalCommand => ps = [.args]
  | .faulted .internalInvariant => True
  | .faulted .shortFrame => ps = [Phase.args, .head, .scan] ++ enginePhases
  | .checksumMismatch _ _ => ps = workingPhases i
  | .invalidCharacter c _ => ∃ before last, ps = before ++ [last] ∧
      (last = .head ∨ (last = .scan ∧ 128 ≤ c.toNat) ∨ (last = .pack ∧ c.toNat < 128))

/-- The ways a run of command `i` passes its phases to P_IDLE. -/
inductive PhaseRun (i : Instr) (t : State) : Prop where
  | succeeded (herr : t.err = ErrorRecord.zero) (hidle : t.work.phase = .idle)
      (hphases : t.phases = workingPhases i ++ [.finish, .idle])
  | failed (e : CommandError) (ps : List Phase) (hne : ps ≠ []) (hpre : ps <+: workingPhases i)
      (hafter : e.RaisedAfter i ps) (herr : t.err = e.record) (hidle : t.work.phase = .idle)
      (hphases : t.phases = ps ++ [.finish, .idle])

variable {i : Instr} {u : State}

theorem phaseRun_raise {e : CommandError} {ps : List Phase} (hu : u.phases = ps) (hne : ps ≠ [])
    (hpre : ps <+: workingPhases i) (hafter : e.RaisedAfter i ps) : PhaseRun i (raise e u) :=
  .failed e ps hne hpre hafter (by simp) (by simp) (by simp [hu])

/-- An up-front check (R209) raises in P_ARGS, where every command begins. -/
theorem phaseRun_raise_args {e : CommandError} (hu : u.phases = [.args]) (hafter : e.RaisedAfter i [.args]) :
    PhaseRun i (raise e u) :=
  phaseRun_raise hu (by simp) (by cases i <;> simp [workingPhases]) hafter

theorem phaseRun_finishWith (hu : u.phases = workingPhases i) (herr : u.err = ErrorRecord.zero) (len : Nat)
    (version : BitVec 5) : PhaseRun i (finishWith len version u) :=
  .succeeded (by simp [herr]) (by simp) (by simp [hu])

theorem phaseRun_succeed (hu : u.phases = workingPhases i) (herr : u.err = ErrorRecord.zero) (result : List Byte)
    (version : BitVec 5) : PhaseRun i (succeed result version u) :=
  .succeeded (by simp [herr]) (by simp) (by simp [hu])

/-! ### The paths of the buffer commands -/

theorem packPhases_isPrefix : packPhases <+: enginePhases := ⟨[.flush, .strip, .pad, .rev], rfl⟩

theorem phaseRun_encodeInto {ps : List Phase} (hu : u.phases = ps) (herr : u.err = ErrorRecord.zero)
    (hw : workingPhases i = ps ++ enginePhases) (head input : List Byte) : PhaseRun i (encodeInto head input u) := by
  rw [encodeInto]
  split
  · refine phaseRun_raise (ps := ps ++ packPhases) (by simp [hu]) (by simp [packPhases]) ?_ trivial
    rw [hw, List.prefix_append_right_inj]
    exact packPhases_isPrefix
  · exact phaseRun_succeed (by simp [hu, hw]) (by simp [herr]) _ _

theorem phaseRun_encodeCheckInto (hu : u.phases = [.args]) (herr : u.err = ErrorRecord.zero)
    (hw : workingPhases i = [Phase.args, .head, .hash] ++ enginePhases) (head : List Byte) :
    PhaseRun i (encodeCheckInto head u) := by
  rw [encodeCheckInto]
  dsimp only
  split
  · exact phaseRun_raise_args hu rfl
  split
  · exact phaseRun_raise_args (by simp [hu]) rfl
  · exact phaseRun_encodeInto (by simp [hu]) (by simp [herr]) hw _ _

/-- An invalid symbol ends a decode run in P_SCAN or P_PACK, by whether its byte is >= 128 (R141, R143). -/
theorem phaseRun_badSymbol {ps : List Phase} (b : BadSymbol) (index : Nat) (hu : u.phases = ps ++ b.phases)
    (hw : ps ++ Phase.scan :: packPhases <+: workingPhases i) : PhaseRun i (raise (.invalidCharacter b.char index) u) := by
  rw [BadSymbol.phases, getLsbD_seven] at hu
  by_cases hascii : 128 ≤ b.char.toNat
  · simp only [hascii, decide_true, if_true] at hu
    have hpre : ps ++ [Phase.scan] <+: workingPhases i :=
      List.IsPrefix.trans ⟨packPhases, by simp⟩ hw
    exact phaseRun_raise hu (by simp) hpre ⟨ps, .scan, rfl, .inr (.inl ⟨rfl, hascii⟩)⟩
  · simp only [hascii, decide_false, Bool.false_eq_true, if_false] at hu
    exact phaseRun_raise hu (by simp) hw
      ⟨ps ++ [.scan, .lz], .pack, by simp [packPhases], .inr (.inr ⟨rfl, by omega⟩)⟩

theorem phaseRun_decodeSlice (hu : u.phases = [.args]) (herr : u.err = ErrorRecord.zero)
    (hw : workingPhases i = [Phase.args, .scan] ++ enginePhases) (off : Nat) : PhaseRun i (decodeSlice off u) := by
  have hpre : [Phase.args] ++ .scan :: packPhases <+: workingPhases i := by
    rw [hw]
    exact ⟨[.flush, .strip, .pad, .rev], rfl⟩
  rw [decodeSlice]
  dsimp only
  split
  · exact phaseRun_raise_args hu rfl
  split
  · exact phaseRun_badSymbol _ _ (by simp [hu]) hpre
  split
  · exact phaseRun_raise (by simp [hu]) (by simp) hpre trivial
  · exact phaseRun_succeed (by simp [hu, hw]) (by simp [herr]) _ _

/-- The comparison passes P_HASH and P_VERIFY, unless the unit is too short for a checksum (R163). The error record is rewritten
by name: compared by evaluation, it would make the kernel run the SHA-256 unit. -/
theorem phaseRun_verifyUnit (hu : u.phases = [Phase.args, .head, .scan] ++ enginePhases) (herr : u.err = ErrorRecord.zero)
    (hw : workingPhases i = [Phase.args, .head, .scan] ++ enginePhases ++ [Phase.hash, .verify]) (unit : List Byte)
    (ver : BitVec 8) : PhaseRun i (verifyUnit unit ver u) := by
  rw [verifyUnit]
  dsimp only
  split
  · exact phaseRun_raise hu (by simp) ⟨[.hash, .verify], hw.symm⟩ rfl
  split
  · exact phaseRun_raise (ps := workingPhases i) (by simp [hu, hw]) (by simp [hw]) List.prefix_rfl rfl
  · exact phaseRun_succeed (by simp [hu, hw]) (by rw [setChk_err, goThrough_err, herr]) _ _

theorem phaseRun_decodeCheckSlice (hu : u.phases = [.args]) (herr : u.err = ErrorRecord.zero)
    (hw : workingPhases i = [Phase.args, .head, .scan] ++ enginePhases ++ [Phase.hash, .verify]) (off : Nat) :
    PhaseRun i (decodeCheckSlice off u) := by
  have hpre : [Phase.args, .head] ++ .scan :: packPhases <+: workingPhases i := by
    rw [hw]
    exact ⟨[.flush, .strip, .pad, .rev, .hash, .verify], rfl⟩
  have hhead : [Phase.args, .head] <+: workingPhases i := (List.prefix_append _ _).trans hpre
  rw [decodeCheckSlice]
  dsimp only
  split
  · exact phaseRun_raise_args hu rfl
  split
  · exact phaseRun_raise_args hu rfl
  split
  · exact phaseRun_raise (by simp [hu]) (by simp) hhead ⟨[.args], .head, rfl, .inl rfl⟩
  split
  · rename_i version _ hlarge
    exact absurd (version_setWidth_lt version) (by omega)
  split
  · exact phaseRun_badSymbol _ _ (by simp [hu]) hpre
  split
  · exact phaseRun_raise (by simp [hu]) (by simp) hpre trivial
  · exact phaseRun_verifyUnit (by simp [hu]) (by simp [herr]) hw _ _

theorem phaseRun_prefixError {e : CommandError} (hu : u.phases = [.args]) (he : prefixError u = some e) :
    PhaseRun i (raise e u) := by
  refine phaseRun_raise_args hu ?_
  obtain ⟨-, h⟩ | ⟨-, -, h⟩ | ⟨-, -, h⟩ := prefixError_cases u
  · cases he.symm.trans h
    rfl
  · cases he.symm.trans h
    rfl
  · cases he.symm.trans h

/-- Every command passes its phases in one of the two ways. -/
theorem exec_phaseRun (i : Instr) {s t : State} (h : exec i s = .next t) : PhaseRun i t := by
  have hu : (beginCommand s).phases = [.args] := rfl
  have herr : (beginCommand s).err = ErrorRecord.zero := rfl
  cases i with
  | enclen | declen | encchklen | decchklen => cases h; exact phaseRun_finishWith hu herr _ _
  | encode =>
    cases h
    split
    · exact phaseRun_raise_args hu rfl
    split
    · exact phaseRun_raise_args hu rfl
    · exact phaseRun_encodeInto hu herr rfl _ _
  | encodeP =>
    cases h
    split
    · exact phaseRun_raise_args hu rfl
    split
    · exact phaseRun_raise_args hu rfl
    · exact phaseRun_encodeInto (ps := [.args, .head]) (by simp) (by simp) rfl _ _
  | encodeCheck | encodeCheckP =>
    cases h
    split
    · exact phaseRun_raise_args hu rfl
    · exact phaseRun_encodeCheckInto hu herr rfl _
  | decode =>
    cases h
    split
    · exact phaseRun_raise_args hu rfl
    · exact phaseRun_decodeSlice hu herr rfl _
  | decodeCheck =>
    cases h
    split
    · exact phaseRun_raise_args hu rfl
    · exact phaseRun_decodeCheckSlice hu herr rfl _
  | decodeP =>
    cases h
    split
    · exact phaseRun_raise_args hu rfl
    split
    · exact phaseRun_prefixError hu ‹_›
    · exact phaseRun_decodeSlice hu herr rfl _
  | decodeCheckP =>
    cases h
    split
    · exact phaseRun_raise_args hu rfl
    split
    · exact phaseRun_prefixError hu ‹_›
    · exact phaseRun_decodeCheckSlice hu herr rfl _

/-! ### The phases by the error record -/

section
variable {e : CommandError} {ps : List Phase} (h : e.RaisedAfter i ps)
include h

theorem CommandError.RaisedAfter.eq_args (hk : e.record.errKind = 1 ∨ e.record.errKind = 3 ∨ e.record.errKind = 4 ∨
    e.record.errKind = 5 ∨ e.record.faultCause = 4) : ps = [.args] := by
  cases e with
  | bufferTooSmall | missingPrefix | invalidVersion | insufficientData => exact h
  | invalidCharacter | checksumMismatch => simp [CommandError.record, ErrorRecord.zero] at hk
  | faulted cause =>
    cases cause with
    | lengthOutOfRange | illegalCommand => exact h
    | shortFrame | internalInvariant => simp [CommandError.record, ErrorRecord.zero, FaultCause.code] at hk

theorem CommandError.RaisedAfter.eq_workingPhases (hk : e.record.errKind = 6) : ps = workingPhases i := by
  cases e with
  | checksumMismatch => exact h
  | missingPrefix _ got => cases got <;> simp [CommandError.record] at hk
  | bufferTooSmall | invalidVersion | insufficientData | invalidCharacter | faulted =>
    simp [CommandError.record] at hk

theorem CommandError.RaisedAfter.eq_through_rev (hk : e.record.faultCause = 2) : ps = [Phase.args, .head, .scan] ++ enginePhases := by
  cases e with
  | faulted cause =>
    cases cause with
    | shortFrame => exact h
    | lengthOutOfRange | illegalCommand | internalInvariant => simp [CommandError.record, FaultCause.code] at hk
  | missingPrefix _ got => cases got <;> simp [CommandError.record, ErrorRecord.zero] at hk
  | bufferTooSmall | invalidVersion | insufficientData | invalidCharacter | checksumMismatch =>
    simp [CommandError.record, ErrorRecord.zero] at hk

theorem CommandError.RaisedAfter.last_of_invalidCharacter (hk : e.record.errKind = 2) : ∃ before last, ps = before ++ [last] ∧
    (last = .head ∨ (last = .scan ∧ 128 ≤ e.record.errChar.toNat) ∨
      (last = .pack ∧ e.record.errChar.toNat < 128)) := by
  cases e with
  | invalidCharacter => exact h
  | missingPrefix _ got => cases got <;> simp [CommandError.record] at hk
  | bufferTooSmall | invalidVersion | insufficientData | checksumMismatch | faulted =>
    simp [CommandError.record] at hk

end

theorem head?_of_isPrefix_workingPhases {ps : List Phase} (hne : ps ≠ []) (hpre : ps <+: workingPhases i) :
    ps.head? = some .args := by
  obtain ⟨rest, hrest⟩ := hpre
  rw [← head?_workingPhases i, ← hrest, List.head?_append_of_ne_nil _ hne]

/-- Settles O60: both ways a run ends give a path through the table of R40, and the error record tells how far it went. -/
theorem phasesFollowTheTable : Obligations.PhasesFollowTheTable := by
  unfold Obligations.PhasesFollowTheTable
  intro i s t h
  cases exec_phaseRun i h with
  | succeeded herr hidle hphases =>
    rw [herr, hphases, hidle, ← successPhases_eq]
    refine ⟨successPhases_eq i ▸ isChain_exit List.prefix_rfl, by cases i <;> rfl, by cases i <;> rfl, rfl,
      fun _ => rfl, ?_⟩
    simp [ErrorRecord.zero]
  | failed e ps hne hpre hafter herr hidle hphases =>
    rw [herr, hphases, hidle]
    refine ⟨isChain_exit hpre, ?head, by simp, rfl, ?noError, ?upFront, ?mismatch, ?shortFrame, ?badCharacter⟩
    case head =>
      rw [List.head?_append_of_ne_nil _ hne]
      exact head?_of_isPrefix_workingPhases hne hpre
    case noError => exact fun hk => absurd hk (errKind_record_ne_zero e)
    case upFront => exact fun hk => by rw [hafter.eq_args hk]; rfl
    case mismatch => exact fun hk => by rw [hafter.eq_workingPhases hk, successPhases_eq]
    case shortFrame => exact fun hk => by rw [hafter.eq_through_rev hk]; rfl
    case badCharacter =>
      intro hk
      obtain ⟨before, last, rfl, hlast⟩ := hafter.last_of_invalidCharacter hk
      refine ⟨before, last, by simp, ?_, hlast⟩
      rw [successPhases_eq]
      exact hpre.trans (List.prefix_append _ _)

end Sys2Proof.Machine
end

section
/-! What a command leaves of the block's memory (R67, R209): its completion keeps the operands, SRC and DST at and above DST_CAP,
and a failure keeps all of DST exactly when its record says so. -/

namespace Sys2Proof.Machine

variable {i : Instr} {s t : State}

/-! ### Completions and DST -/

theorem completion_of_exec (h : exec i s = .next t) : Completion s t := by
  obtain ⟨t', ht', hcompletion⟩ := exec_completion i s
  obtain rfl : t' = t := by simpa [ht'] using h
  exact hcompletion

/-- A completed command leaves DST at and above DST_CAP (R67). -/
theorem Completion.dstKeptFrom (h : Completion s t) : DstKeptFrom s.capacity s t := by
  cases h with
  | failed e u hu hd => exact (hu.underWay.raise e).dstKept
  | succeeded result version u hu hr hd => exact (hu.underWay.succeed hr version).dstKept
  | computed len u hu => exact fun i _ => hu.underWay.readDst i

/-- Settles O43: every command ends in a completion, which keeps the operands and DST from DST_CAP on. -/
theorem commandFrame : Obligations.CommandFrame := by
  unfold Obligations.CommandFrame
  intro i s t h
  have hcompletion := completion_of_exec h
  exact ⟨hcompletion.operandsKept, hcompletion.dstKeptFrom⟩

/-- The failures that keep DST are BufferTooSmall, IllegalCommand and LengthOutOfRange (R67, R201, R208). -/
theorem CommandError.keepsDst_iff (e : CommandError) :
    e.keepsDst = true ↔ e.record.errKind = 1 ∨ e.record.faultCause = 1 ∨ e.record.faultCause = 4 := by
  cases e with
  | missingPrefix _ got => cases got <;> simp [keepsDst, record, ErrorRecord.zero]
  | faulted cause => cases cause <;> simp [keepsDst, record, ErrorRecord.zero, FaultCause.code]
  | bufferTooSmall | invalidCharacter | invalidVersion | insufficientData | checksumMismatch =>
    simp [keepsDst, record, ErrorRecord.zero]

theorem Completion.dst_of_err (h : Completion s t)
    (herr : t.err.errKind = 1 ∨ t.err.faultCause = 1 ∨ t.err.faultCause = 4) : t.dst = s.dst := by
  cases h with
  | failed e u hu hd =>
    have hfailed := hu.underWay.raise e
    rw [hfailed.err, ← e.keepsDst_iff] at herr
    exact hfailed.dstWhole herr
  | succeeded result version u hu hr hd =>
    rw [(hu.underWay.succeed hr version).err] at herr
    simp [ErrorRecord.zero] at herr
  | computed len u hu => exact hu.underWay.dst

/-- A capacity command writes registers alone (R114 to R117). -/
theorem dst_of_exec_of_capacity (hcapacity : i.fields.capacity = true) (h : exec i s = .next t) : t.dst = s.dst := by
  cases i with
  | enclen | declen | encchklen | decchklen => cases h; rfl
  | encode | decode | encodeCheck | decodeCheck | encodeP | decodeP | encodeCheckP | decodeCheckP =>
    simp [Instr.fields] at hcapacity

/-- Settles O44: a capacity command has no buffer result, and the error record tells the failures that keep DST. -/
theorem dstWhollyKept : Obligations.DstWhollyKept := by
  unfold Obligations.DstWhollyKept
  intro i s t h hkept
  obtain hcapacity | herr := hkept
  · exact dst_of_exec_of_capacity hcapacity h
  · exact (completion_of_exec h).dst_of_err herr

end Sys2Proof.Machine
end

section
/-! The HOST's accesses (R61, R65 to R70). While BUSY nothing but reset touches the block; otherwise a read delivers its value, a
write of a byte that exists stores it, and an offset holds a register or reads 0. -/

namespace Sys2Proof.Machine

variable {s : State}

/-! ### While BUSY -/

theorem regWrite_of_busy (hbusy : s.isBusy = true) (offset : Nat) (value : Word64) : regWrite offset value s = s := by
  rw [regWrite, if_pos hbusy]

theorem byteWrite_of_busy (hbusy : s.isBusy = true) (sp : Space) (index : Nat) (v : Byte) : byteWrite sp index v s = s := by
  rw [byteWrite, if_pos hbusy]

theorem regReadValue_status (s : State) : regReadValue (regOffset .status) s = s.status.setWidth 64 := by
  rw [regReadValue, if_neg (by simp)]
  rfl

/-- While BUSY an act of the HOST other than reset moves its script, its reads and the draws alone (R68). -/
theorem hostAct_of_busy (hbusy : s.isBusy = true) {line : HostLine} (hline : line ≠ .reset) (rest : List HostLine) :
    ∃ script reads draws, hostAct line rest s = .next { s with script := script, reads := reads, draws := draws } := by
  cases line with
  | wr | cmd =>
    rw [hostAct, regWrite_of_busy (s := { s with script := rest }) hbusy]
    exact ⟨rest, s.reads, s.draws, rfl⟩
  | wait =>
    rw [hostAct]
    split
    · exact ⟨_, _, _, rfl⟩
    · exact ⟨s.script, s.reads, s.draws, rfl⟩
  | rd offset => exact ⟨_, _, _, rfl⟩
  | wrb sp index bytes =>
    cases bytes with
    | nil => exact ⟨rest, s.reads, s.draws, rfl⟩
    | cons b bs =>
      rw [hostAct, if_pos (.inl hbusy),
        byteWrite_of_busy (s := { s with script := .wrb sp (index + 1) bs :: rest }) hbusy]
      exact ⟨_, s.reads, s.draws, rfl⟩
  | rdb sp index count =>
    cases count with
    | zero => exact ⟨rest, s.reads, s.draws, rfl⟩
    | succ count =>
      rw [hostAct, if_pos (.inl hbusy)]
      exact ⟨_, _, _, rfl⟩
  | reset => exact absurd rfl hline

/-- Settles O55: while BUSY writes are dropped, and reads but STATUS's are answered by the draw. -/
theorem busyHostAccessesChangeNothing : Obligations.BusyHostAccessesChangeNothing := by
  unfold Obligations.BusyHostAccessesChangeNothing
  intro s hbusy
  refine ⟨fun line rest => ?acts, regReadValue_status s, fun offset hoffset => ?reads, fun sp i => ?bytes⟩
  case acts =>
    by_cases hline : line = .reset
    · subst hline
      exact ⟨_, rfl, fun hne => absurd rfl hne⟩
    · obtain ⟨script, reads, draws, hact⟩ := hostAct_of_busy hbusy hline rest
      exact ⟨_, hact, fun _ => rfl⟩
  case reads => rw [regReadValue, if_pos ⟨hbusy, hoffset⟩]
  case bytes => rw [byteReadValue, if_pos hbusy]

/-! ### Buffer bytes while not BUSY -/

theorem memory_writeBytes (sp : Space) (start : Nat) (bs : List Byte) (s : State) :
    (writeBytes sp start bs s).memory sp = (s.memory sp).putRange start bs := by
  cases sp <;> rfl

theorem memory_writeBytes_of_ne {sp sp' : Space} (h : sp' ≠ sp) (start : Nat) (bs : List Byte) (s : State) :
    (writeBytes sp start bs s).memory sp' = s.memory sp' := by
  cases sp with
  | src =>
    cases sp' with
    | src => exact absurd rfl h
    | dst => rfl
  | dst =>
    cases sp' with
    | src => rfl
    | dst => exact absurd rfl h

/-- A byte reads as written (R70). -/
theorem readByte_writeBytes_singleton (sp : Space) (index : Nat) (b : Byte) (s : State) :
    readByte sp index (writeBytes sp index [b] s) = b := by
  simp [readByte, memory_writeBytes, get?_putRange]

/-- A write of one byte leaves every other byte of both buffers (R70). -/
theorem readByte_writeBytes_singleton_of_ne {sp sp' : Space} {index i : Nat} (h : (sp', i) ≠ (sp, index)) (b : Byte)
    (s : State) : readByte sp' i (writeBytes sp index [b] s) = readByte sp' i s := by
  by_cases hsp : sp' = sp
  · subst hsp
    have hout : ¬(index ≤ i ∧ i < index + [b].length) := by
      have hi : i ≠ index := fun hi => h (by rw [hi])
      rw [List.length_singleton]
      omega
    simp only [readByte, memory_writeBytes, get?_putRange, if_neg hout, writeBytes_epoch]
  · simp only [readByte, memory_writeBytes_of_ne hsp, writeBytes_epoch]

theorem byteWrite_of_not_busy (hbusy : s.isBusy = false) (sp : Space) (index : Nat) (v : Byte) :
    byteWrite sp index v s = writeBytes sp index [v] s := by
  simp [byteWrite, hbusy]

/-- A HOST write of a byte that exists is one write of its buffer (R66). -/
theorem hostAct_wrb_of_not_busy (hbusy : s.isBusy = false) {sp : Space} {index : Nat} (hindex : index < s.sizeOf sp)
    (b : Byte) (bytes : List Byte) (rest : List HostLine) : hostAct (.wrb sp index (b :: bytes)) rest s =
      .next (writeBytes sp index [b] { s with script := .wrb sp (index + 1) bytes :: rest }) := by
  rw [hostAct, if_pos (.inr hindex),
    byteWrite_of_not_busy (s := { s with script := .wrb sp (index + 1) bytes :: rest }) hbusy]

/-- Settles O57: the access is one write of the buffer, which reads as written at its index and leaves every other. -/
theorem hostByteWrite : Obligations.HostByteWrite := by
  unfold Obligations.HostByteWrite
  intro s sp index b bytes rest hbusy hindex
  refine ⟨_, hostAct_wrb_of_not_busy hbusy hindex b bytes rest, readByte_writeBytes_singleton .., fun sp' i hne => ?_, ?_⟩
  · exact readByte_writeBytes_singleton_of_ne hne _ _
  · cases sp <;> rfl

/-- Settles O59: beyond the buffer's size the index test of a HOST access fails. -/
theorem hostAccessPastABufferFaults : Obligations.HostAccessPastABufferFaults := by
  unfold Obligations.HostAccessPastABufferFaults
  intro s sp index count b bytes rest hbusy hindex
  have hpast : ¬(s.isBusy = true ∨ index < s.sizeOf sp) := by simp [hbusy, hindex]
  exact ⟨by rw [hostAct, if_neg hpast], by rw [hostAct, if_neg hpast]⟩

/-! ### Register reads while not BUSY -/

theorem regReadValue_of_not_busy (hbusy : s.isBusy = false) (offset : Nat) : regReadValue offset s = slotAt offset s := by
  simp [regReadValue, hbusy]

theorem byteReadValue_of_not_busy (hbusy : s.isBusy = false) (sp : Space) (index : Nat) :
    byteReadValue sp index s = readByte sp index s := by
  simp [byteReadValue, hbusy]

/-- Settles O56: a read while not BUSY is the delivery of the slot or the byte. -/
theorem hostReadsHaveNoSideEffect : Obligations.HostReadsHaveNoSideEffect := by
  unfold Obligations.HostReadsHaveNoSideEffect
  intro s rest hbusy
  refine ⟨fun offset => ?_, fun sp index count hindex => ?_⟩
  · rw [hostAct, regReadValue_of_not_busy hbusy]
    rfl
  · rw [hostAct, if_pos (.inr hindex), byteReadValue_of_not_busy hbusy]
    rfl

/-! ### The register map -/

/-- The registers stand at the first 18 multiples of 8 (R61). -/
theorem regOffsets_eq : regsInOrder.map regOffset = (List.range 18).map (8 * ·) := by
  decide

theorem regAt_eq_none_iff (offset : Nat) : regAt offset = none ↔ offset % 8 ≠ 0 ∨ 0x90 ≤ offset := by
  have hmem : regAt offset = none ↔ offset ∉ regsInOrder.map regOffset := by
    simp [regAt]
  rw [hmem, regOffsets_eq]
  constructor
  · intro h
    by_contra hheld
    exact h (List.mem_map.2 ⟨offset / 8, List.mem_range.2 (by omega), by omega⟩)
  · intro hhole h
    obtain ⟨k, hk, rfl⟩ := List.mem_map.1 h
    have := List.mem_range.1 hk
    omega

/-- Settles O51: an offset without a register has no slot to write or to read. -/
theorem registerMapHoles : Obligations.RegisterMapHoles := by
  unfold Obligations.RegisterMapHoles
  intro offset value s
  refine ⟨regAt_eq_none_iff offset, fun hhole => ?_⟩
  rw [← regAt_eq_none_iff] at hhole
  have hslot : slotAt offset s = 0 := by simp [slotAt, hhole]
  have hwrite : regWrite offset value s = s := by simp [regWrite, hhole]
  exact ⟨hwrite, hslot, fun hbusy => (regReadValue_of_not_busy hbusy offset).trans hslot⟩

/-- The lowest byte of a slot stands at its first bus address, the ones above it at the next (R65). -/
theorem slotBytes_append {n : Nat} (hi : BitVec n) (lo : Byte) {count : Nat} (hcount : count < 8) :
    (List.range (count + 1)).map (slotByte ((hi ++ lo).setWidth 64)) =
      lo :: (List.range count).map (slotByte (hi.setWidth 64)) := by
  have hfirst : slotByte ((hi ++ lo).setWidth 64) 0 = lo := by
    ext j hj
    have hin : j < 64 := by omega
    simp [slotByte, BitVec.getLsbD_append, hj, hin]
  have hnext (k : Nat) (hk : k < count) :
      slotByte ((hi ++ lo).setWidth 64) (k + 1) = slotByte (hi.setWidth 64) k := by
    ext j hj
    have hlow : ¬8 * (k + 1) + j < 8 := by omega
    have hsub : 8 * (k + 1) + j - 8 = 8 * k + j := by omega
    have hin : 8 * (k + 1) + j < 64 := by omega
    have hin' : 8 * k + j < 64 := by omega
    simp [slotByte, BitVec.getLsbD_append, hlow, hsub, hin, hin']
  rw [List.range_succ_eq_map, List.map_cons, List.map_map, hfirst]
  exact congrArg _ (List.map_congr_left fun k hk => hnext k (List.mem_range.1 hk))

/-- The bus bytes of an array register's slot are its elements in order and zeros (R61, R65). -/
theorem slotBytes_quadWord (q : Quad) :
    (List.range 8).map (slotByte ((quadWord q).setWidth 64)) = quadBytes q ++ [0, 0, 0, 0] := by
  have htop : (List.range 5).map (slotByte (q.b3.setWidth 64)) = [q.b3, 0, 0, 0, 0] := by
    have hwidth : q.b3.setWidth 64 = ((0 : BitVec 0) ++ q.b3).setWidth 64 := by
      rw [BitVec.zero_width_append]
      rfl
    rw [hwidth, slotBytes_append _ _ (by omega)]
    rfl
  rw [quadWord, slotBytes_append _ _ (by omega), slotBytes_append _ _ (by omega), slotBytes_append _ _ (by omega), htop]
  rfl

theorem regReadValue_of_regAt (hbusy : s.isBusy = false) {offset : Nat} {r : Reg} (hreg : regAt offset = some r) :
    regReadValue offset s = regSlot r s := by
  simp [regReadValue_of_not_busy hbusy, slotAt, hreg]

/-- Settles O52: each offset holds its register, and an array register's slot has its elements as its low bytes. -/
theorem registerReads : Obligations.RegisterReads := by
  unfold Obligations.RegisterReads
  intro s hbusy
  have read (r : Reg) : regReadValue (regOffset r) s = regSlot r s := regReadValue_of_regAt hbusy (by cases r <;> rfl)
  have readQuad {r : Reg} {q : Quad} (hslot : regSlot r s = (quadWord q).setWidth 64) :
      (List.range 8).map (slotByte (regReadValue (regOffset r) s)) = quadBytes q ++ [0, 0, 0, 0] := by
    rw [read, hslot, slotBytes_quadWord]
  exact ⟨read .cmd, read .status, read .srcLen, read .dstCap, read .version, read .prefixReg, read .resultLen,
    read .resultVersion, read .errKind, read .faultCause, read .errMin, read .errLen, read .errIndex, read .errChar,
    read .errVersion, readQuad (r := .errExpected) rfl, readQuad (r := .errGot) rfl, read .errGotValid⟩

end Sys2Proof.Machine
end

section
/-! The step while BUSY (R68, R73): the CORE's, of the command in CMD, or an act of a HOST that does not wait (log entry 4). -/

namespace Sys2Proof.Machine

variable {s : State}

/-- While BUSY with a HOST that does not wait, a draw orders the CORE and the HOST (log entry 4). -/
theorem step_of_busy_of_not_hostWaits {line : HostLine} {rest : List HostLine} (hbusy : s.isBusy = true)
    (hscript : s.script = line :: rest) (hwaits : hostWaits s.script = false) :
    step s = if Config.coreFirst s.draws then coreStep (drawn s) else hostAct line rest (drawn s) := by
  rw [hscript] at hwaits
  cases hfirst : Config.coreFirst s.draws <;> simp [step, turn, hscript, hbusy, hwaits, hfirst]

/-- The CORE's step is the command that CMD decodes to (R73, R81). -/
theorem coreStep_of_fetch {i : Instr} {rest : List Byte} (h : fetch s = .ok i rest) : coreStep s = exec i s := by
  rw [coreStep, h]

theorem coreStep_of_rejected {e : DecodeError} (h : fetch s = .rejected e) : coreStep s = .next (illegalCommand s) := by
  rw [coreStep, h]

/-- All eight bits of a command's byte make its table word (R80). -/
theorem tableByte_toNat (b : Byte) : tableByte 8 b.toNat = b := by
  rw [tableByte, Nat.mod_eq_of_lt b.isLt, BitVec.ofNat_toNat, BitVec.setWidth_eq]

/-- Settles O5: the step of a BUSY block is the CORE's, alone or by the draw, and the CORE's is the command in CMD. -/
theorem stepRunsDecodedCommand : Obligations.StepRunsDecodedCommand := by
  unfold Obligations.StepRunsDecodedCommand
  refine ⟨fun s i rest _ hbusy hfetch => ⟨fun hwaits => ?_, fun line lines hscript hwaits => ?_⟩,
    fun s e hbusy hfetch => ⟨fun hwaits => ?_, fun line lines hscript hwaits => ?_⟩, fun s i => ?_⟩
  · rw [step_of_busy_of_hostWaits hbusy hwaits, coreStep_of_fetch hfetch]
  · rw [step_of_busy_of_not_hostWaits hbusy hscript hwaits, coreStep_of_fetch (s := drawn s) hfetch]
  · rw [step_of_busy_of_hostWaits hbusy hwaits, coreStep_of_rejected hfetch]
  · rw [step_of_busy_of_not_hostWaits hbusy hscript hwaits, coreStep_of_rejected (s := drawn s) hfetch]
  · have hcmd : (s.withFetchWord 8 (encodeByte i).toNat).cmd = encodeByte i := tableByte_toNat _
    have hbusy : (s.withFetchWord 8 (encodeByte i).toNat).isBusy = true := issue_isBusy _ _
    rw [step_of_busy_of_hostWaits hbusy rfl, coreStep_of_cmd hcmd]

end Sys2Proof.Machine
end

section
/-! The decoder of command bytes (R80 to R82): a byte is a command exactly when its fields are legal, and the bytes with legal
fields are the twelve of R81. -/

namespace Sys2Proof.Machine

/-! ### The decoder by the fields of the byte -/

theorem decode_of_wellFormed {b : Byte} (h : (commandFieldsOf b).wellFormed = true) (rest : List Byte) :
    decode (b :: rest) = .ok (instrOfFields (commandFieldsOf b)) rest := by
  rw [CommandFields.wellFormed, Bool.and_eq_true, Bool.and_eq_true] at h
  obtain ⟨⟨hzero, hgo⟩, hvariant⟩ := h
  simp [decode, hzero, hgo, hvariant]

theorem exists_decode_eq_rejected_iff (b : Byte) (rest : List Byte) :
    (∃ e, decode (b :: rest) = .rejected e) ↔ (commandFieldsOf b).wellFormed = false := by
  by_cases hlegal : (commandFieldsOf b).wellFormed = true
  · simp [decode_of_wellFormed hlegal, hlegal]
  · refine iff_of_true ?_ (Bool.eq_false_of_not_eq_true hlegal)
    simp only [decode]
    split_ifs with hzero hgo hvariant
    · exact ⟨.zeroField, rfl⟩
    · exact ⟨.goClear, rfl⟩
    · exact ⟨.prefixedCapacity, rfl⟩
    · exact absurd (by simp_all [CommandFields.wellFormed]) hlegal

theorem wellFormed_of_decode_eq_ok {b : Byte} {rest rest' : List Byte} {i : Instr}
    (h : decode (b :: rest) = .ok i rest') : (commandFieldsOf b).wellFormed = true := by
  by_contra hillegal
  obtain ⟨e, hrejected⟩ := (exists_decode_eq_rejected_iff b rest).2 (Bool.eq_false_of_not_eq_true hillegal)
  exact nomatch h.symm.trans hrejected

/-! ### The bytes with legal fields -/

theorem zeroOk_commandFieldsOf (b : Byte) : (commandFieldsOf b).zeroOk = decide (b.toNat < 0x20) := by
  have hlt := b.isLt
  rw [CommandFields.zeroOk, commandFieldsOf, Bool.beq_eq_decide_eq, decide_eq_decide, ← BitVec.toNat_inj]
  simp only [BitVec.extractLsb'_toNat, Nat.shiftRight_eq_div_pow, BitVec.ofNat_eq_ofNat, BitVec.toNat_ofNat]
  omega

/-- The fields are legal from GO alone, 0x10, up to the last byte before P and L meet, 0x1B (R80, R82). -/
theorem wellFormed_commandFieldsOf_iff (b : Byte) :
    (commandFieldsOf b).wellFormed = true ↔ 0x10 ≤ b.toNat ∧ b.toNat ≤ 0x1B := by
  rw [CommandFields.wellFormed, zeroOk_commandFieldsOf, CommandFields.goOk, CommandFields.variantOk, commandFieldsOf]
  simp only [BitVec.getLsbD, Nat.testBit_eq_decide_div_mod_eq, Bool.and_eq_true, Bool.not_eq_true', Bool.and_eq_false_iff,
    decide_eq_true_eq, decide_eq_false_iff_not]
  omega

/-! ### The encoder -/

theorem commandFieldsOf_encodeByte (i : Instr) : commandFieldsOf (encodeByte i) = i.fields := by
  cases i with
  | encode => exact Laws.Fields.encode.1
  | decode => exact Laws.Fields.decode.1
  | encodeCheck => exact Laws.Fields.encodeCheck.1
  | decodeCheck => exact Laws.Fields.decodeCheck.1
  | enclen => exact Laws.Fields.enclen.1
  | declen => exact Laws.Fields.declen.1
  | encchklen => exact Laws.Fields.encchklen.1
  | decchklen => exact Laws.Fields.decchklen.1
  | encodeP => exact Laws.Fields.encodeP.1
  | decodeP => exact Laws.Fields.decodeP.1
  | encodeCheckP => exact Laws.Fields.encodeCheckP.1
  | decodeCheckP => exact Laws.Fields.decodeCheckP.1

/-- The column "P L C D" tells the commands apart (R81). -/
theorem instrOfFields_fields (i : Instr) : instrOfFields i.fields = i := by
  cases i <;> rfl

theorem instr_wellFormed (i : Instr) : i.wellFormed = true := by
  cases i <;> rfl

theorem decode_encode_append (i : Instr) (rest : List Byte) : decode (encode i ++ rest) = .ok i rest := by
  have hlegal : (commandFieldsOf (encodeByte i)).wellFormed = true := by
    rw [commandFieldsOf_encodeByte]
    exact instr_wellFormed i
  rw [encode, List.singleton_append, decode_of_wellFormed hlegal, commandFieldsOf_encodeByte, instrOfFields_fields]

/-- Settles O2: the command's byte has its fields, which are legal and name it. -/
theorem decodeOfEncode : Obligations.DecodeOfEncode := by
  unfold Obligations.DecodeOfEncode
  exact fun i rest _ => decode_encode_append i rest

/-- Settles O3: rejected are the bytes without legal fields, the complement of 0x10 to 0x1B. -/
theorem illegalBytesRejected : Obligations.IllegalBytesRejected := by
  unfold Obligations.IllegalBytesRejected
  intro b
  rw [exists_decode_eq_rejected_iff, ← Bool.not_eq_true, wellFormed_commandFieldsOf_iff]
  omega

/-- Settles O1: each word of the table is its command's encoding, and a byte outside the table is rejected. -/
theorem commandBytesDecode : Obligations.CommandBytesDecode := by
  unfold Obligations.CommandBytesDecode
  have hword (i : Instr) : decode [encodeByte i] = .ok i [] := decode_encode_append i []
  exact ⟨hword .encode, hword .decode, hword .encodeCheck, hword .decodeCheck, hword .enclen, hword .declen,
    hword .encchklen, hword .decchklen, hword .encodeP, hword .decodeP, hword .encodeCheckP, hword .decodeCheckP,
    fun b i hok => (wellFormed_commandFieldsOf_iff b).1 (wellFormed_of_decode_eq_ok hok)⟩

end Sys2Proof.Machine
end

section
/-! An illegal byte in CMD (R82), a WAIT outside BUSY (R92), and the valid entries of DLUT (R85). -/

namespace Sys2Proof.Machine

/-- A byte written to CMD is the byte issued (R21). -/
theorem regWrite_cmd_setWidth {s : State} (hbusy : s.isBusy = false) (b : Byte) :
    regWrite (regOffset .cmd) (b.setWidth 64) s = issue b s := by
  rw [regWrite_cmd hbusy, BitVec.setWidth_setWidth_of_le _ (by omega), BitVec.setWidth_eq]

theorem failed_illegalCommand (s : State) : Failed s (illegalCommand s) (.faulted .illegalCommand) :=
  (underWay_beginCommand s).raise _

/-- Settles O8: the issued byte is rejected, and the CORE's step is the error completion of IllegalCommand. -/
theorem illegalCommandCompletesAtOnce : Obligations.IllegalCommandCompletesAtOnce := by
  unfold Obligations.IllegalCommandCompletesAtOnce
  intro s b hbusy hillegal
  obtain ⟨e, hrejected⟩ : ∃ e, fetch (issue b s) = .rejected e := (illegalBytesRejected b).2 hillegal
  have hfailed := failed_illegalCommand (issue b s)
  have hkept := hfailed.kept
  refine ⟨illegalCommand (issue b s), ?_, hkept.cmd, hfailed.status, hfailed.err, hfailed.resultLen,
    hfailed.resultVersion, hfailed.phase, hkept.src, hfailed.dstWhole rfl, hkept.srcLen, hkept.dstCap, hkept.version,
    hkept.prefixReg, hkept.params, hkept.epoch⟩
  exact (congrArg coreStep (regWrite_cmd_setWidth hbusy b)).trans (coreStep_of_rejected hrejected)

/-- Settles O58: while not BUSY the step is the act of the WAIT, which DONE ends. -/
theorem waitLine : Obligations.WaitLine := by
  unfold Obligations.WaitLine
  intro s rest hbusy hscript
  rw [step_of_not_busy hbusy hscript, hostAct]
  refine ⟨fun hdone => ?_, fun hdone => ?_⟩
  · rw [if_pos hdone]
    rfl
  · rw [if_neg (by simp [hdone])]

/-- Row by row of the grid of R85: a code with a valid entry is the symbol of its index, or one of the three aliases. -/
theorem eq_symbol_or_alias_of_mem_dlut (c : BitVec 7) :
    ∀ k ∈ dlut c, c.setWidth 8 = symbol k ∨ c = 0x4F ∨ c = 0x49 ∨ c = 0x4C := by
  revert c
  decide

/-- Settles O4: DLUT inverts ALPHABET, and its grid has no valid entry beside those and the aliases. -/
theorem dlutIsAlphabetPlusThreeAliases : Obligations.DlutIsAlphabetPlusThreeAliases := by
  unfold Obligations.DlutIsAlphabetPlusThreeAliases
  refine ⟨dlut_symbol, rfl, rfl, rfl, fun c hvalid => ?_⟩
  obtain ⟨k, hk⟩ := Option.ne_none_iff_exists'.1 hvalid
  exact (eq_symbol_or_alias_of_mem_dlut c k hk).imp_left fun hsymbol => ⟨k, hsymbol⟩

end Sys2Proof.Machine
end

section
/-! The capacity commands (R114 to R117). Each is one register result whose length is a capacity function of SRC_LEN; the bounds
of `encoded_length` (R109) keep that length within 64 bits. -/

namespace Sys2Proof.Machine

/-! ### encoded_length (R109, R110) -/

theorem le_encodedLength (n : Nat) : n ≤ encodedLength n := by
  rw [encodedLength]
  omega

theorem encodedLength_le_two_mul (n : Nat) : encodedLength n ≤ 2 * n := by
  rw [encodedLength]
  omega

/-- The eight bits of a byte need more than one symbol of five, so only the empty input is not lengthened. -/
theorem lt_encodedLength {n : Nat} (hpos : 0 < n) : n < encodedLength n := by
  rw [encodedLength]
  omega

theorem encodedLength_mono : Monotone encodedLength :=
  fun _ _ hle => Nat.div_le_div_right (Nat.add_le_add_right (Nat.mul_le_mul_right 8 hle) 4)

/-- Settles O13: the bounds of `encoded_length`, strict from one byte on, and its monotonicity. -/
theorem encodedLengthLaws : Obligations.EncodedLengthLaws := by
  unfold Obligations.EncodedLengthLaws
  refine ⟨fun n => ⟨le_encodedLength n, encodedLength_le_two_mul n, fun heq => ?_⟩, fun _ _ hle => encodedLength_mono hle⟩
  by_contra hne
  exact (lt_encodedLength (Nat.pos_of_ne_zero hne)).ne' heq

/-! ### The lengths fit in RESULT_LEN (R118) -/

theorem toNat_ofNat_encodedLength (s : State) :
    (BitVec.ofNat 64 (encodedLength s.inputLen)).toNat = encodedLength s.inputLen := by
  have hinput : s.inputLen < 2 ^ 32 := s.srcLen.isLt
  have hbound := encodedLength_le_two_mul s.inputLen
  rw [BitVec.toNat_ofNat, Nat.mod_eq_of_lt (by omega)]

theorem toNat_ofNat_encodedCheckLength (s : State) :
    (BitVec.ofNat 64 (encodedCheckLength s.inputLen)).toNat = encodedCheckLength s.inputLen := by
  have hinput : s.inputLen < 2 ^ 32 := s.srcLen.isLt
  have hbound := encodedLength_le_two_mul (s.inputLen + 4)
  have hcheck : encodedCheckLength s.inputLen = 1 + encodedLength (s.inputLen + 4) := rfl
  rw [BitVec.toNat_ofNat, Nat.mod_eq_of_lt (by omega)]

/-! ### The commands -/

/-- A command that does nothing but deliver a length: the registers its beginning and its success write, every other field the
state's own. -/
theorem finishWith_beginCommand (len : Nat) (s : State) :
    finishWith len 0 (beginCommand s) = { s with
      resultLen := BitVec.ofNat 64 len, resultVersion := 0, err := ErrorRecord.zero, status := 0x02,
      work := { s.work.atIssue with phase := .idle }, phases := [.args, .finish, .idle] } := rfl

/-- SRC_LEN as RESULT_LEN: the numeric value of the operand at the register's width. -/
theorem ofNat_inputLen (s : State) : BitVec.ofNat 64 s.inputLen = s.srcLen.setWidth 64 :=
  BitVec.ofNat_toNat 64 s.srcLen

/-- Settles O9: the register result of `encoded_length` of SRC_LEN, below 2^64 by the bound of R109. -/
theorem enclenResult : Obligations.EnclenResult := by
  unfold Obligations.EnclenResult
  exact fun s => ⟨congrArg Host.Outcome.next (finishWith_beginCommand (encodedLength s.inputLen) s),
    toNat_ofNat_encodedLength s⟩

/-- Settles O10: the register result of SRC_LEN itself. -/
theorem declenResult : Obligations.DeclenResult := by
  unfold Obligations.DeclenResult
  intro s
  rw [← ofNat_inputLen]
  exact congrArg Host.Outcome.next (finishWith_beginCommand (decodedLength s.inputLen) s)

/-- Settles O11: the register result of `encoded_check_length` of SRC_LEN, below 2^64 by the bound of R109. -/
theorem encchklenResult : Obligations.EncchklenResult := by
  unfold Obligations.EncchklenResult
  exact fun s => ⟨congrArg Host.Outcome.next (finishWith_beginCommand (encodedCheckLength s.inputLen) s),
    toNat_ofNat_encodedCheckLength s⟩

/-- Settles O12: the register result of SRC_LEN itself. -/
theorem decchklenResult : Obligations.DecchklenResult := by
  unfold Obligations.DecchklenResult
  intro s
  rw [← ofNat_inputLen]
  exact congrArg Host.Outcome.next (finishWith_beginCommand (decodedCheckLength s.inputLen) s)

end Sys2Proof.Machine
end

section
/-! Counts of the engines: the leading zeros of an input (R121, R142), the bits a carry chain conserves (R122, R143), and from
both the highest WP of a run (R127, R148). -/

namespace Sys2Proof.Machine

/-! ### Leading zeros -/

/-- LZ is the index of the first byte that is not the zero. -/
theorem leadingCount_eq_findIdx (z : Byte) (l : List Byte) : leadingCount z l = l.findIdx fun b => !(b == z) := by
  rw [leadingCount, List.takeWhile_eq_take_findIdx_not, List.length_take, Nat.min_eq_left List.findIdx_le_length]

/-- Settles O26: below the first byte that is not the zero every byte is. -/
theorem leadingCountIsLongestPrefix : Obligations.LeadingCountIsLongestPrefix := by
  unfold Obligations.LeadingCountIsLongestPrefix
  intro z input
  rw [leadingCount_eq_findIdx]
  refine ⟨List.findIdx_le_length, fun i _ hi => ?_, fun h => ?_⟩
  · simpa using List.not_of_lt_findIdx hi
  · simpa using List.findIdx_getElem (w := h)

/-! ### The bits of a chain -/

/-- A chain's digits and held bits are the quotient and the remainder of its bits by the width of a digit. -/
theorem ChainHolds.counts {width : Nat} {toByte : BitVec width → Byte} {value bits : Nat} {c : Chain}
    {ds : List (BitVec width)} (h : ChainHolds toByte value bits c ds) :
    c.emitted.length = bits / width ∧ c.nbits = bits % width := by
  have hlen : c.emitted.length = ds.length := by rw [h.emitted, List.length_map]
  have hpos : 0 < width := Nat.zero_lt_of_lt h.nbits
  rw [hlen, ← h.bits, Nat.mul_add_div hpos, Nat.mul_add_mod, Nat.div_eq_of_lt h.nbits, Nat.mod_eq_of_lt h.nbits]
  exact ⟨rfl, rfl⟩

/-- Settles O27: the encode chain holds the 8N bits of its input in digits of five. -/
theorem packChainCounts : Obligations.PackChainCounts := by
  unfold Obligations.PackChainCounts
  intro input
  obtain ⟨ds, h⟩ := packAll_holds input
  exact ⟨h.counts.1, h.counts.2, h.carry⟩

/-- Emissions turn held bits into emitted digits. -/
theorem drain_bits (width : Nat) (f : BitVec 12 → Byte) (fuel : Nat) (c : Chain) :
    width * (Chain.drain width f fuel c).emitted.length + (Chain.drain width f fuel c).nbits =
      width * c.emitted.length + c.nbits := by
  induction fuel generalizing c with
  | zero => rfl
  | succ fuel ih =>
    rw [Chain.drain]
    split
    · rw [ih]
      simp only [Chain.emit, List.length_cons, Nat.mul_add]
      omega
    · rfl

theorem unpackSymbol_bits (k : BitVec 5) (c : Chain) :
    8 * (unpackSymbol k c).emitted.length + (unpackSymbol k c).nbits = 8 * c.emitted.length + c.nbits + 5 :=
  drain_bits 8 lowByte _ _

/-- The chain of a lookup pass, completed or interrupted, holds at most the five bits of each symbol (R143). -/
theorem unpackAll_bits (lz i : Nat) (input : List Byte) :
    match unpackAll lz i input with
    | .ok c => 8 * c.emitted.length + c.nbits = 5 * input.length
    | .bad b => 8 * b.chain.emitted.length + b.chain.nbits ≤ 5 * input.length := by
  induction input generalizing i with
  | nil => rfl
  | cons c cs ih =>
    have ih := ih (i + 1)
    rw [unpackAll, List.length_cons]
    cases hu : unpackAll lz (i + 1) cs with
    | bad b =>
      rw [hu] at ih
      dsimp only at ih ⊢
      omega
    | ok chain =>
      rw [hu] at ih
      cases dlut (c.setWidth 7) with
      | none =>
        dsimp only at ih ⊢
        omega
      | some k =>
        have hbits := unpackSymbol_bits k chain
        dsimp only at ih ⊢
        omega

/-! ### The flushes -/

/-- A flush emits at most one more symbol, and only from bits that are held (R123). -/
theorem flushSymbol_length_le (c : Chain) :
    (flushSymbol c).emitted.length ≤ c.emitted.length + if 0 < c.nbits then 1 else 0 := by
  rw [flushSymbol]
  split
  · rename_i h
    simp [Chain.clear, h.1]
  · exact Nat.le_add_right _ _

theorem flushByte_length (c : Chain) :
    (flushByte c).emitted.length = c.emitted.length + if 0 < c.nbits then 1 else 0 := by
  rw [flushByte]
  split <;> simp [Chain.clear]

end Sys2Proof.Machine
end

section
/-! The closed forms of the engines (R130, R151) and what they give: the bound on WP of every run (R127, R148), and that decoding
an encoding gives the bytes (R151 a). -/

namespace Sys2Proof.Machine

/-! ### The engines in closed form -/

/-- Settles O30: pad and the reversals put the counted zeros before the numeral that strip leaves. -/
theorem encodeEngineClosedForm : Obligations.EncodeEngineClosedForm := by
  unfold Obligations.EncodeEngineClosedForm
  intro input
  exact (repack_eq _ _ _).trans (by rw [strip_flushSymbol, encClosed])

/-- A decode run completes on valid symbols alone. -/
theorem badIndex_of_decodeRun_ok {l : List Byte} {r : EngineRun} (h : decodeRun l = .ok r) : badIndex l = none := by
  cases hbad : badIndex l with
  | none => rfl
  | some j =>
    obtain ⟨lz, ch, hrun, -⟩ := decodeRun_bad hbad
    exact nomatch h.symm.trans hrun

/-- A completed decode run gives the closed form (R151). -/
theorem result_of_decodeRun_ok {l : List Byte} {r : EngineRun} (h : decodeRun l = .ok r) : r.result = decClosed l := by
  obtain ⟨ch, ds, hrun, hh⟩ := decodeRun_ok (badIndex_of_decodeRun_ok h)
  cases h.symm.trans hrun
  exact (repack_eq _ _ _).trans (by rw [strip_flushByte hh, decClosed])

/-! ### The highest WP of a run -/

/-- A number of `bits` bits has at most as many digits of `width` bits as cover them. -/
theorem numeral_length_le_of_lt_two_pow {width bits k n : Nat} (hw : 0 < width) (h : n < 2 ^ bits)
    (hbits : bits ≤ width * k) : (numeral (2 ^ width) n).length ≤ k := by
  refine numeral_length_le (Nat.one_lt_two_pow hw.ne') (h.trans_le ?_)
  rw [← Nat.pow_mul]
  exact Nat.pow_le_pow_right (by omega) hbits

/-- The zeros and the numeral of an encoding: no more symbols than the bits of the input need (R127). -/
theorem encBytes_length_le (input : List Byte) : (encBytes input).length ≤ encodedLength input.length := by
  have hlz := leadingCount_le 0 input
  have hnum : (numeral 32 (bytesValue input)).length ≤ encodedLength (input.length - leadingCount 0 input) :=
    numeral_length_le_of_lt_two_pow (width := 5) (by omega) (bytesValue_lt input) (by rw [encodedLength]; omega)
  rw [encodeEngineClosedForm, encClosed, List.length_append, List.length_replicate, List.length_map]
  rw [encodedLength] at hnum ⊢
  omega

theorem encodeRun_peak_le (input : List Byte) : (encodeRun input).peak ≤ encodedLength input.length := by
  refine max_le ?_ (encBytes_length_le input)
  obtain ⟨hlen, hnbits, -⟩ := packChainCounts input
  refine (flushSymbol_length_le _).trans ?_
  rw [hlen, hnbits, encodedLength]
  split <;> omega

/-- The zeros and the numeral of a decoding: no more bytes than symbols (R148). -/
theorem decClosed_length_le {l : List Byte} (h : badIndex l = none) : (decClosed l).length ≤ l.length := by
  have hlz := leadingCount_le zeroChar l
  have hvalid : ∀ c ∈ l, ∃ k, symbolValue c = some k := fun c hc => by
    obtain ⟨hascii, hk⟩ := all_valid h c hc
    rwa [symbolValue_of_ascii hascii]
  have hnum : (numeral 256 (symbolsValue (l.filterMap symbolValue))).length ≤ l.length - leadingCount zeroChar l :=
    numeral_length_le_of_lt_two_pow (width := 8) (by omega) (symbolsValue_lt l hvalid) (by omega)
  rw [decClosed, List.length_append, List.length_replicate, List.length_map]
  omega

theorem decodeRun_peak_le {l : List Byte} {r : EngineRun} (h : decodeRun l = .ok r) : r.peak ≤ l.length := by
  have hvalid := badIndex_of_decodeRun_ok h
  obtain ⟨ch, ds, hrun, hh⟩ := decodeRun_ok hvalid
  have hresult : r.result.length ≤ l.length := by
    rw [result_of_decodeRun_ok h]
    exact decClosed_length_le hvalid
  cases h.symm.trans hrun
  refine max_le ?_ hresult
  obtain ⟨hlen, hnbits⟩ := hh.counts
  rw [flushByte_length, hlen, hnbits]
  split <;> omega

/-- A decode run ends at an invalid symbol of the ASCII pass, with nothing emitted, or of the lookup pass. -/
theorem decodeRun_bad_cases {l : List Byte} {b : BadSymbol} (h : decodeRun l = .bad b) :
    b.chain = Chain.start ∨ unpackAll (leadingCount zeroChar l) 0 l = .bad b := by
  rw [decodeRun] at h
  split at h
  · cases h
    exact .inl rfl
  · split at h
    · cases h
      exact .inr ‹_›
    · cases h

theorem decodeRun_bad_emitted_le {l : List Byte} {b : BadSymbol} (h : decodeRun l = .bad b) :
    b.chain.emitted.length ≤ l.length := by
  obtain hstart | hbad := decodeRun_bad_cases h
  · rw [hstart]
    exact Nat.zero_le _
  · have hbits := unpackAll_bits (leadingCount zeroChar l) 0 l
    rw [hbad] at hbits
    dsimp only at hbits
    omega

/-- Settles O29: the emitted digits are bounded by the bits of the input, the result by what follows its leading zeros. -/
theorem engineRunsWithinCapacity : Obligations.EngineRunsWithinCapacity := by
  unfold Obligations.EngineRunsWithinCapacity
  exact ⟨encodeRun_peak_le, fun _ _ h => decodeRun_peak_le h, fun _ _ h => decodeRun_bad_emitted_le h⟩

/-! ### Decoding an encoding -/

theorem numeral_head_ne_zero {base n d : Nat} {ds : List Nat} (h : numeral base n = d :: ds) : d ≠ 0 := by
  have hn : n ≠ 0 := by
    rintro rfl
    simp [numeral] at h
  have hlast := Nat.getLast_digit_ne_zero base hn
  rw [numeral, List.reverse_eq_cons_iff] at h
  simpa [h] using hlast

theorem bigEndian_replicate_zero_append (base n : Nat) (ds : List Nat) :
    bigEndian base (List.replicate n 0 ++ ds) = bigEndian base ds := by
  rw [bigEndian_eq_ofDigits, List.reverse_append, List.reverse_replicate, Nat.ofDigits_append_replicate_zero,
    bigEndian_eq_ofDigits]

theorem leadingCount_replicate_append (z : Byte) (n : Nat) (l : List Byte) :
    leadingCount z (List.replicate n z ++ l) = n + leadingCount z l := by
  rw [leadingCount, List.takeWhile_append_of_pos (by simp), List.length_append, List.length_replicate]
  rfl

/-- The 5-bit values of an encoding: a 0 for each leading zero byte, then the digits of the numeral (R130). -/
def encValues (input : List Byte) : List (BitVec 5) :=
  List.replicate (leadingCount 0 input) 0 ++ (numeral 32 (bytesValue input)).map (BitVec.ofNat 5)

theorem encBytes_eq_map_symbol (input : List Byte) : encBytes input = (encValues input).map symbol := by
  have hzero : symbol 0 = zeroChar := (symbol_eq_zeroChar 0).2 rfl
  rw [encodeEngineClosedForm, encClosed, encValues, List.map_append, List.map_replicate, List.map_map, hzero]
  rfl

theorem symbolsValue_encValues (input : List Byte) : symbolsValue (encValues input) = bytesValue input := by
  have hdigits : (numeral 32 (bytesValue input)).map (BitVec.toNat ∘ BitVec.ofNat 5) = numeral 32 (bytesValue input) :=
    (List.map_congr_left fun d hd => Nat.mod_eq_of_lt (numeral_lt (by omega) hd)).trans (List.map_id _)
  rw [symbolsValue, encValues, List.map_append, List.map_replicate, List.map_map, hdigits]
  exact (bigEndian_replicate_zero_append _ _ _).trans (bigEndian_numeral _ _)

/-- The numeral of an encoding does not begin with a zero-character, so the leading zeros are those counted (R130). -/
theorem leadingCount_encBytes (input : List Byte) : leadingCount zeroChar (encBytes input) = leadingCount 0 input := by
  rw [encodeEngineClosedForm, encClosed, leadingCount_replicate_append]
  cases hnum : numeral 32 (bytesValue input) with
  | nil => rfl
  | cons d ds =>
    have hlt : d < 32 := numeral_lt (by omega) (hnum ▸ List.mem_cons_self)
    have hd : symbol (BitVec.ofNat 5 d) ≠ zeroChar := by
      rw [Ne, symbol_eq_zeroChar]
      intro h0
      have := congrArg BitVec.toNat h0
      exact numeral_head_ne_zero hnum (by simpa [Nat.mod_eq_of_lt hlt] using this)
    simp [leadingCount, hd]

theorem filterMap_symbolValue_map_symbol (ks : List (BitVec 5)) : (ks.map symbol).filterMap symbolValue = ks := by
  rw [List.filterMap_map, show symbolValue ∘ symbol = some from funext symbolValue_symbol, List.filterMap_some]

/-- Its leading zeros and the numeral of its number are all of a byte sequence. -/
theorem replicate_append_numeral (bytes : List Byte) :
    List.replicate (leadingCount 0 bytes) 0 ++ (numeral 256 (bytesValue bytes)).map (BitVec.ofNat 8) = bytes := by
  have hstrip := stripZeros_eq_numeral id_eq_zero (by omega) bytes
  rw [List.map_id] at hstrip
  have hzeros : bytes.takeWhile (· == 0) = List.replicate (leadingCount 0 bytes) 0 :=
    List.eq_replicate_of_mem fun b hb => by simpa using List.mem_takeWhile_imp hb
  calc _ = bytes.takeWhile (· == 0) ++ stripZeros 0 bytes := by rw [hstrip, hzeros]; rfl
    _ = bytes := List.takeWhile_append_dropWhile

theorem decClosed_encBytes (bytes : List Byte) : decClosed (encBytes bytes) = bytes := by
  rw [decClosed, leadingCount_encBytes, encBytes_eq_map_symbol, filterMap_symbolValue_map_symbol, symbolsValue_encValues]
  exact replicate_append_numeral bytes

/-- No index is reported exactly where every byte is a valid symbol (R210). -/
theorem badIndex_eq_none_iff {l : List Byte} :
    badIndex l = none ↔ ∀ c ∈ l, c.toNat < 128 ∧ dlut (c.setWidth 7) ≠ none := by
  constructor
  · intro h c hc
    obtain ⟨hascii, k, hk⟩ := all_valid h c hc
    exact ⟨hascii, by simp [hk]⟩
  · intro h
    have hlookup : lastInvalid l = none := by
      rw [lastInvalid, List.getLast?_eq_none_iff, List.filter_eq_nil_iff]
      intro i hi
      have hlt := List.mem_range.1 hi
      rw [List.getD_eq_getElem _ _ hlt, Option.isNone_iff_eq_none]
      exact (h _ (List.getElem_mem hlt)).2
    rw [badIndex, firstNonAscii_none.2 fun c hc => (h c hc).1, hlookup]
    rfl

/-- Every symbol of ALPHABET is valid (R84, R85). -/
theorem badIndex_map_symbol (ks : List (BitVec 5)) : badIndex (ks.map symbol) = none := by
  rw [badIndex_eq_none_iff, List.forall_mem_map]
  intro k _
  have hascii : (symbol k).toNat < 128 := by
    have := (getLsbD_seven (symbol k)).symm.trans (symbol_ascii k)
    simpa using this
  exact ⟨hascii, by simp [dlut_symbol]⟩

/-- A decode run of an encoding completes with the bytes that were encoded (R151 a). -/
theorem decodeRun_encBytes (bytes : List Byte) : ∃ r, decodeRun (encBytes bytes) = .ok r ∧ r.result = bytes := by
  have hvalid : badIndex (encBytes bytes) = none := by
    rw [encBytes_eq_map_symbol]
    exact badIndex_map_symbol _
  obtain ⟨ch, ds, hrun, -⟩ := decodeRun_ok hvalid
  exact ⟨_, hrun, (result_of_decodeRun_ok hrun).trans (decClosed_encBytes bytes)⟩

end Sys2Proof.Machine
end

section
/-! ENCODE and ENCODE_P from every state (R128, R129), and the round trip through DECODE (R151 a). The fault InternalInvariant
never ends a run, by the bounds on WP (R127, R148, R208). -/

namespace Sys2Proof.Machine

variable {s u : State}

theorem lengthOutOfRange_iff (s : State) : s.lengthOutOfRange = true ↔ OutOfRange s := by
  simp [State.lengthOutOfRange, OutOfRange]

@[simp] theorem srcRange_length (start len : Nat) (s : State) : (srcRange start len s).length = len := by
  simp [srcRange]

/-! ### Encode commands -/

/-- An encode run with room for its input ends in its result: WP stays below DST_CAP (R127, R208 cause 3). -/
theorem succeeded_encodeInto (hu : UnderWay s u) {head input : List Byte}
    (hroom : head.length + encodedLength input.length ≤ s.capacity) :
    Succeeded s (encodeInto head input u) (head ++ encBytes input) 0 := by
  have hpeak := encodeRun_peak_le input
  have hlength := encBytes_length_le input
  have hload := hu.load (encodeRun input) (BitVec.ofNat 2 head.length) 0
  rw [encodeInto, hload.capacity, if_neg (by omega)]
  exact (hload.goThrough enginePhases).succeed (by rw [List.length_append, ← encBytes]; omega) 0

/-- The outcome of ENCODE and ENCODE_P, their tests in the order of R128 and R129. -/
def EncodeOutcome (min : Nat) (result : List Byte) (s t : State) : Prop :=
  (OutOfRange s → Failed s t (.faulted .lengthOutOfRange)) ∧
  (¬OutOfRange s → s.capacity < min → Failed s t (.bufferTooSmall min s.capacity)) ∧
  (¬OutOfRange s → min ≤ s.capacity → Succeeded s t result 0)

/-- The range test and the capacity test before an encode run. -/
theorem encodeOutcome_of_tests (hu : UnderWay s u) {head input : List Byte} {min : Nat}
    (hmin : min = head.length + encodedLength input.length) :
    EncodeOutcome min (head ++ encBytes input) s
      (if (beginCommand s).lengthOutOfRange then raise (.faulted .lengthOutOfRange) (beginCommand s)
      else if (beginCommand s).capacity < min then raise (.bufferTooSmall min (beginCommand s).capacity) (beginCommand s)
      else encodeInto head input u) := by
  have hbegin := underWay_beginCommand s
  simp only [beginCommand_lengthOutOfRange, lengthOutOfRange_iff, beginCommand_capacity]
  refine ⟨fun hrange => ?range, fun hrange hsmall => ?small, fun hrange hroom => ?room⟩
  case range =>
    rw [if_pos hrange]
    exact hbegin.raise _
  case small =>
    rw [if_neg hrange, if_pos hsmall]
    exact hbegin.raise _
  case room =>
    rw [if_neg hrange, if_neg (by omega)]
    exact succeeded_encodeInto hu (hmin ▸ hroom)

/-- Settles O14: the two tests of R128, then an encode run with nothing before its result. -/
theorem encodeOutcomeOnEveryState : Obligations.EncodeOutcomeOnEveryState := by
  unfold Obligations.EncodeOutcomeOnEveryState
  intro s
  have h := encodeOutcome_of_tests (head := []) (input := srcRange 0 s.inputLen s) (underWay_beginCommand s)
    (min := encodedLength s.inputLen) (by simp)
  exact ⟨_, rfl, h⟩

/-- Settles O15: the two tests of R129, then an encode run behind PREFIX as a byte. -/
theorem encodePrefixedOutcomeOnEveryState : Obligations.EncodePrefixedOutcomeOnEveryState := by
  unfold Obligations.EncodePrefixedOutcomeOnEveryState
  intro s
  have h := encodeOutcome_of_tests (head := [s.prefixByte]) (input := srcRange 0 s.inputLen s)
    ((underWay_beginCommand s).goThrough [.head]) (min := 1 + encodedLength s.inputLen) (by simp)
  exact ⟨_, rfl, h⟩

/-! ### ENCODE, then DECODE -/

/-- STATUS tells a success from a failure (R44). -/
theorem Failed.status_ne {t : State} {e : CommandError} (h : Failed s t e) : t.status ≠ 0x02 := by
  rw [h.status]
  decide

/-- An ENCODE that ended without an error left the encoding of its input (R128). -/
theorem succeeded_of_exec_encode {t : State} (h : exec .encode s = .next t) (hstatus : t.status = 0x02) :
    Succeeded s t (encBytes (srcRange 0 s.inputLen s)) 0 := by
  obtain ⟨t', ht', hrange, hsmall, hroom⟩ := encodeOutcomeOnEveryState s
  obtain rfl : t' = t := by simpa [ht'] using h
  have hin : ¬OutOfRange s := fun hout => (hrange hout).status_ne hstatus
  exact hroom hin (Nat.le_of_not_lt fun hlt => (hsmall hin hlt).status_ne hstatus)

/-- SRC of a state that holds a command's result is the result (R238). -/
theorem HoldsResultOf.srcRange_eq {t : State} {result : List Byte} {version : BitVec 5} (hcopy : HoldsResultOf t u)
    (h : Succeeded s t result version) : srcRange 0 u.inputLen u = result := by
  have hlen : u.inputLen = result.length := hcopy.srcLen.trans h.resultLen
  refine List.ext_getElem (by rw [srcRange_length, hlen]) fun j hj hj' => ?_
  calc (srcRange 0 u.inputLen u)[j] = readByte .src j u := by simp [srcRange]
    _ = readByte .dst j t := hcopy.srcBytes j (by omega)
    _ = result[j] := h.dstResult j hj'

/-- A completed decode run of a slice with room for it ends in its result: WP stays below DST_CAP (R148, R208 cause 3). -/
theorem succeeded_decodeSlice (hu : UnderWay s u) {off : Nat} (hroom : s.inputLen - off ≤ s.capacity) {r : EngineRun}
    (hrun : decodeRun (srcRange off (s.inputLen - off) s) = .ok r) : Succeeded s (decodeSlice off u) r.result 0 := by
  have hpeak := decodeRun_peak_le hrun
  have hlength := decodeRun_result_le_peak hrun
  have hload := hu.load r 0 (BitVec.ofNat 2 off)
  rw [srcRange_length] at hpeak
  rw [decodeSlice, hu.inputLen, hu.srcRange, hrun]
  dsimp only
  rw [hu.capacity, hload.capacity, decodedLength, if_neg (by omega), if_neg (by omega)]
  exact (hload.goThrough (.scan :: enginePhases)).succeed (by omega) 0

/-- DECODE with its lengths in range is its slice from SRC[0] on (R149). -/
theorem exec_decode_of_inRange (h : ¬OutOfRange s) : exec .decode s = .next (decodeSlice 0 (beginCommand s)) := by
  rw [← lengthOutOfRange_iff] at h
  exact congrArg Host.Outcome.next (if_neg h)

/-- Settles O36: SRC holds the encoding of the input, whose decode run completes with the input. -/
theorem decodeCommandRestoresEncodedInput : Obligations.DecodeCommandRestoresEncodedInput := by
  unfold Obligations.DecodeCommandRestoresEncodedInput
  intro s t u hencode hstatus hcopy hsrc hdst hroom
  have hin : ¬OutOfRange u := by
    rintro (h | h) <;> omega
  obtain ⟨r, hrun, hresult⟩ := decodeRun_encBytes (srcRange 0 s.inputLen s)
  rw [← hcopy.srcRange_eq (succeeded_of_exec_encode hencode hstatus)] at hrun
  have hdecoded := succeeded_decodeSlice (underWay_beginCommand u) (off := 0) hroom hrun
  exact ⟨_, exec_decode_of_inRange hin, hresult ▸ hdecoded⟩

end Sys2Proof.Machine
end

section
/-! The decode engine as a function of its input (R140 to R151): the counts of its chain, its value by the reported index, and
the two round trips with the encode engine. -/

namespace Sys2Proof.Machine

/-- Settles O28: the chain conserves the five bits of each symbol and holds fewer than the eight bits of a byte. -/
theorem unpackChainCounts : Obligations.UnpackChainCounts := by
  unfold Obligations.UnpackChainCounts
  intro lz i input c hok
  have hbits := unpackAll_bits lz i input
  have hbounds := unpackAll_bounds lz i input
  rw [hok] at hbits hbounds
  obtain ⟨hnbits, hcarry⟩ := hbounds
  dsimp only at hbits
  exact ⟨by omega, by omega, hcarry⟩

/-! ### The value of a decode run -/

theorem decBytes_of_decodeRun_ok {l : List Byte} {r : EngineRun} (h : decodeRun l = .ok r) :
    decBytes l = some r.result := by
  rw [decBytes, h]

/-- Without a reported index a decode run completes with the closed form (R151). -/
theorem decBytes_of_badIndex_eq_none {l : List Byte} (h : badIndex l = none) : decBytes l = some (decClosed l) := by
  obtain ⟨ch, ds, hrun, -⟩ := decodeRun_ok h
  rw [decBytes_of_decodeRun_ok hrun, result_of_decodeRun_ok hrun]

/-- A decode run that reports an index gives no value (R140). -/
theorem decBytes_of_badIndex_eq_some {l : List Byte} {j : Nat} (h : badIndex l = some j) : decBytes l = none := by
  obtain ⟨lz, ch, hrun, -⟩ := decodeRun_bad h
  rw [decBytes, hrun]

/-- Settles O31: a run gives the closed form where no index is reported, which is where every byte is a valid symbol, and no
value elsewhere. -/
theorem decodeEngineClosedForm : Obligations.DecodeEngineClosedForm := by
  unfold Obligations.DecodeEngineClosedForm
  refine fun input => ⟨fun hvalid => ?_, fun hvalue => ?_⟩
  · exact decBytes_of_badIndex_eq_none (badIndex_eq_none_iff.2 hvalid)
  · rw [← badIndex_eq_none_iff, Option.eq_none_iff_forall_ne_some]
    exact fun j hj => hvalue (decBytes_of_badIndex_eq_some hj)

/-- Settles O32: the decode run of an encoding completes with the bytes. -/
theorem decodingAnEncodingGivesTheBytes : Obligations.DecodingAnEncodingGivesTheBytes := by
  unfold Obligations.DecodingAnEncodingGivesTheBytes
  intro bytes
  obtain ⟨r, hrun, hresult⟩ := decodeRun_encBytes bytes
  rw [decBytes_of_decodeRun_ok hrun, hresult]

/-! ### Encoding a decoding -/

/-- The digits of a numeral as words of its digits' width: no value is cut. -/
theorem map_toNat_ofNat_numeral {width : Nat} (hw : 0 < width) (n : Nat) :
    ((numeral (2 ^ width) n).map (BitVec.ofNat width)).map BitVec.toNat = numeral (2 ^ width) n := by
  rw [List.map_map]
  refine (List.map_congr_left fun d hd => ?_).trans (List.map_id _)
  exact Nat.mod_eq_of_lt (numeral_lt (Nat.one_lt_two_pow hw.ne') hd)

/-- Zero bytes in front of a numeral do not change its number. -/
theorem bytesValue_decClosed (l : List Byte) : bytesValue (decClosed l) = symbolsValue (l.filterMap symbolValue) := by
  have hdigits : ((numeral 256 (symbolsValue (l.filterMap symbolValue))).map fun d => BitVec.ofNat 8 d).map BitVec.toNat =
      numeral 256 (symbolsValue (l.filterMap symbolValue)) := map_toNat_ofNat_numeral (width := 8) (by omega) _
  rw [bytesValue, decClosed, List.map_append, hdigits, List.map_replicate]
  exact (bigEndian_replicate_zero_append _ _ _).trans (bigEndian_numeral _ _)

/-- A numeral does not begin with the digit 0. -/
theorem leadingCount_numeral {width : Nat} (hw : 0 < width) {toByte : BitVec width → Byte} {z : Byte}
    (hz : ∀ k, toByte k = z ↔ k = 0) (n : Nat) :
    leadingCount z (((numeral (2 ^ width) n).map (BitVec.ofNat width)).map toByte) = 0 := by
  have hdigits := map_toNat_ofNat_numeral hw n
  cases hds : (numeral (2 ^ width) n).map (BitVec.ofNat width) with
  | nil => rfl
  | cons k ks =>
    rw [hds] at hdigits
    have hk : toByte k ≠ z := fun heq => numeral_head_ne_zero hdigits.symm (by simp [(hz k).1 heq])
    simp [leadingCount, hk]

/-- The leading zero bytes of a decoding are those padded for the leading zero-characters (R146). -/
theorem leadingCount_decClosed (l : List Byte) : leadingCount 0 (decClosed l) = leadingCount zeroChar l := by
  have hnum := leadingCount_numeral (width := 8) (by omega) id_eq_zero (symbolsValue (l.filterMap symbolValue))
  rw [List.map_id] at hnum
  rw [decClosed, leadingCount_replicate_append]
  exact congrArg _ hnum

/-- A sequence is its leading zeros and what strip leaves of it. -/
theorem replicate_append_stripZeros (z : Byte) (l : List Byte) :
    List.replicate (leadingCount z l) z ++ stripZeros z l = l := by
  have hzeros : l.takeWhile (· == z) = List.replicate (leadingCount z l) z :=
    List.eq_replicate_of_mem fun b hb => by simpa using List.mem_takeWhile_imp hb
  rw [← hzeros]
  exact List.takeWhile_append_dropWhile

/-- A string of ALPHABET characters is its leading zero-characters and the numeral of its number, which its decoding keeps. -/
theorem encBytes_decClosed_map_symbol (ks : List (BitVec 5)) :
    encBytes (decClosed (ks.map symbol)) = ks.map symbol := by
  rw [encodeEngineClosedForm, encClosed, leadingCount_decClosed, bytesValue_decClosed, filterMap_symbolValue_map_symbol]
  calc _ = List.replicate (leadingCount zeroChar (ks.map symbol)) zeroChar ++ stripZeros zeroChar (ks.map symbol) := by
        rw [stripZeros_eq_numeral symbol_eq_zeroChar (by omega)]; rfl
    _ = ks.map symbol := replicate_append_stripZeros _ _

/-- Settles O33: ALPHABET characters are valid symbols, so they decode to the closed form, whose encoding they are. -/
theorem encodingADecodingGivesTheSymbols : Obligations.EncodingADecodingGivesTheSymbols := by
  unfold Obligations.EncodingADecodingGivesTheSymbols
  exact fun ks => ⟨_, decBytes_of_badIndex_eq_none (badIndex_map_symbol ks), encBytes_decClosed_map_symbol ks⟩

end Sys2Proof.Machine
end

section
/-! DECODE and DECODE_P from every state (R149, R150), and their completion on valid symbols (R151). -/

namespace Sys2Proof.Machine

variable {s t u : State}

/-- The byte of a slice at an index within it. -/
theorem srcRange_getD {start len j : Nat} (h : j < len) (s : State) :
    (srcRange start len s).getD j 0 = readByte .src (start + j) s := by
  rw [List.getD_eq_getElem _ _ (by rwa [srcRange_length])]
  simp [srcRange]

/-! ### The unprefixed path on a slice -/

/-- Without room for a slice DECODE reports the slice's length (R149). -/
theorem failed_decodeSlice_of_noRoom (hu : UnderWay s u) {off : Nat} (hroom : s.capacity < s.inputLen - off) :
    Failed s (decodeSlice off u) (.bufferTooSmall (s.inputLen - off) s.capacity) := by
  rw [decodeSlice, hu.capacity, hu.inputLen, decodedLength, if_pos hroom]
  exact hu.raise _

/-- An invalid symbol of a slice is reported with its index in SRC (R149, R211). -/
theorem failed_decodeSlice_of_badIndex (hu : UnderWay s u) {off i : Nat} (hroom : s.inputLen - off ≤ s.capacity)
    (hbad : badIndex (srcRange off (s.inputLen - off) s) = some i) :
    Failed s (decodeSlice off u) (.invalidCharacter (readByte .src (off + i) s) (off + i)) := by
  obtain ⟨lz, ch, hrun, hi⟩ := decodeRun_bad hbad
  rw [srcRange_length] at hi
  rw [srcRange_getD hi] at hrun
  rw [decodeSlice, hu.capacity, hu.inputLen, hu.srcRange, hrun, decodedLength, if_neg (by omega)]
  exact ((hu.loadBad _ _ _).goThrough _).raise _

/-- The outcome of the unprefixed path: room, then the reported index, then the completed run (R149). -/
theorem decodeOutcome_decodeSlice (hu : UnderWay s u) (off : Nat) : DecodeOutcome off s (decodeSlice off u) := by
  rw [DecodeOutcome]
  split
  case isTrue hroom => exact failed_decodeSlice_of_noRoom hu hroom
  case isFalse hroom =>
    split
    case h_1 i hbad => exact failed_decodeSlice_of_badIndex hu (by omega) hbad
    case h_2 hvalid =>
      obtain ⟨ch, ds, hrun, -⟩ := decodeRun_ok hvalid
      exact ⟨_, decBytes_of_decodeRun_ok hrun, succeeded_decodeSlice hu (by omega) hrun⟩

/-- With room and valid symbols the outcome of a decode path is success with the closed form (R151). -/
theorem DecodeOutcome.succeeded {off : Nat} (h : DecodeOutcome off s t) (hroom : s.inputLen - off ≤ s.capacity)
    (hvalid : ∀ c ∈ srcRange off (s.inputLen - off) s, c.toNat < 128 ∧ dlut (c.setWidth 7) ≠ none) :
    Succeeded s t (decClosed (srcRange off (s.inputLen - off) s)) 0 := by
  have hbad := badIndex_eq_none_iff.2 hvalid
  rw [DecodeOutcome, if_neg (by omega), hbad] at h
  obtain ⟨bytes, hvalue, hsucceeded⟩ := h
  obtain rfl : decClosed _ = bytes := Option.some.inj ((decBytes_of_badIndex_eq_none hbad).symm.trans hvalue)
  exact hsucceeded

theorem not_outOfRange (hsrc : s.inputLen ≤ s.params.srcSize) (hdst : s.capacity ≤ s.params.dstSize) :
    ¬OutOfRange s := by
  rintro (h | h) <;> omega

/-! ### DECODE -/

theorem exec_decode_of_outOfRange (h : OutOfRange s) :
    exec .decode s = .next (raise (.faulted .lengthOutOfRange) (beginCommand s)) :=
  congrArg Host.Outcome.next (if_pos ((lengthOutOfRange_iff s).2 h))

/-- Settles O16: the range test of R149, then the path on SRC[0..M). -/
theorem decodeOutcomeOnEveryState : Obligations.DecodeOutcomeOnEveryState := by
  unfold Obligations.DecodeOutcomeOnEveryState
  intro s
  have hbegin := underWay_beginCommand s
  obtain ⟨t, ht, -⟩ := exec_completion .decode s
  refine ⟨t, ht, fun hout => ?_, fun hin => ?_⟩
  · cases ht.symm.trans (exec_decode_of_outOfRange hout)
    exact hbegin.raise _
  · cases ht.symm.trans (exec_decode_of_inRange hin)
    exact decodeOutcome_decodeSlice hbegin 0

/-- Settles O22: within the sizes DECODE takes its path, which succeeds on valid symbols. -/
theorem decodeOfValidSymbolsCompletes : Obligations.DecodeOfValidSymbolsCompletes := by
  unfold Obligations.DecodeOfValidSymbolsCompletes
  intro s hsrc hdst hroom hvalid
  obtain ⟨t, hexec, -, hpath⟩ := decodeOutcomeOnEveryState s
  exact ⟨t, hexec, (hpath (not_outOfRange hsrc hdst)).succeeded hroom hvalid⟩

/-! ### The test for PREFIX (R204) -/

theorem prefixError_of_empty (h : s.inputLen = 0) : prefixError s = some (.missingPrefix s.prefixByte none) :=
  if_pos h

theorem prefixError_of_ne (h : s.inputLen ≠ 0) (hne : readByte .src 0 s ≠ s.prefixByte) :
    prefixError s = some (.missingPrefix s.prefixByte (some (readByte .src 0 s))) :=
  (if_neg h).trans (if_pos hne)

theorem prefixError_of_eq (h : s.inputLen ≠ 0) (heq : readByte .src 0 s = s.prefixByte) : prefixError s = none :=
  (if_neg h).trans (if_neg (not_not_intro heq))

theorem prefixError_beginCommand (s : State) : prefixError (beginCommand s) = prefixError s := by
  simp [prefixError]

/-! ### DECODE_P -/

theorem exec_decodeP_of_outOfRange (h : OutOfRange s) :
    exec .decodeP s = .next (raise (.faulted .lengthOutOfRange) (beginCommand s)) :=
  congrArg Host.Outcome.next (if_pos ((lengthOutOfRange_iff s).2 h))

theorem exec_decodeP_of_prefixError {e : CommandError} (h : ¬OutOfRange s) (he : prefixError s = some e) :
    exec .decodeP s = .next (raise e (beginCommand s)) := by
  rw [← lengthOutOfRange_iff] at h
  refine congrArg Host.Outcome.next ((if_neg h).trans ?_)
  rw [prefixError_beginCommand, he]

/-- DECODE_P, when SRC[0] is PREFIX, is its slice from SRC[1] on (R150). -/
theorem exec_decodeP_of_prefix (h : ¬OutOfRange s) (he : prefixError s = none) :
    exec .decodeP s = .next (decodeSlice 1 (beginCommand s)) := by
  rw [← lengthOutOfRange_iff] at h
  refine congrArg Host.Outcome.next ((if_neg h).trans ?_)
  rw [prefixError_beginCommand, he]

/-- Settles O17: the range test, the test of R204 for PREFIX, then the path on SRC[1..M). -/
theorem decodePrefixedOutcomeOnEveryState : Obligations.DecodePrefixedOutcomeOnEveryState := by
  unfold Obligations.DecodePrefixedOutcomeOnEveryState
  intro s
  have hbegin := underWay_beginCommand s
  obtain ⟨t, ht, -⟩ := exec_completion .decodeP s
  refine ⟨t, ht, fun hout => ?range, fun hin hempty => ?noByte, fun hin hbyte hne => ?otherByte,
    fun hin hbyte heq => ?path⟩
  case range =>
    cases ht.symm.trans (exec_decodeP_of_outOfRange hout)
    exact hbegin.raise _
  case noByte =>
    cases ht.symm.trans (exec_decodeP_of_prefixError hin (prefixError_of_empty hempty))
    exact hbegin.raise _
  case otherByte =>
    cases ht.symm.trans (exec_decodeP_of_prefixError hin (prefixError_of_ne hbyte hne))
    exact hbegin.raise _
  case path =>
    cases ht.symm.trans (exec_decodeP_of_prefix hin (prefixError_of_eq hbyte heq))
    exact decodeOutcome_decodeSlice hbegin 1

/-- Settles O23: within the sizes and behind PREFIX, DECODE_P takes its path, which succeeds on valid symbols. -/
theorem decodePrefixedOfValidSymbolsCompletes : Obligations.DecodePrefixedOfValidSymbolsCompletes := by
  unfold Obligations.DecodePrefixedOfValidSymbolsCompletes
  intro s hsrc hdst hroom hnonempty hprefix hvalid
  obtain ⟨t, hexec, -, -, -, hpath⟩ := decodePrefixedOutcomeOnEveryState s
  exact ⟨t, hexec, (hpath (not_outOfRange hsrc hdst) hnonempty hprefix).succeeded (by omega) hvalid⟩

end Sys2Proof.Machine
end

section
/-! The checksum (R160): digests have 32 bytes (R187), of which an array register takes the first four in order (R64). -/

namespace Sys2Proof.Machine

theorem shaDigest_length (v : Words8) : (shaDigest v).length = 32 := by
  simp [shaDigest, wordBytes]

theorem sha256_length (m : List Byte) : (sha256 m).length = 32 := shaDigest_length _

/-- An array register keeps the first four bytes of a sequence that has them. -/
theorem quadBytes_quadOfBytes {l : List Byte} (h : 4 ≤ l.length) : quadBytes (quadOfBytes l) = l.take 4 := by
  obtain _ | ⟨b0, _ | ⟨b1, _ | ⟨b2, _ | ⟨b3, rest⟩⟩⟩⟩ := l
  case cons.cons.cons.cons => rfl
  all_goals exact absurd h (by simp)

@[simp] theorem quadOfBytes_quadBytes (q : Quad) : quadOfBytes (quadBytes q) = q := rfl

@[simp] theorem quadBytes_length (q : Quad) : (quadBytes q).length = 4 := rfl

/-- Settles O35: the outer digest is long enough for the register to keep its first four bytes. -/
theorem checksumIsFirstDigestBytes : Obligations.ChecksumIsFirstDigestBytes := by
  unfold Obligations.ChecksumIsFirstDigestBytes
  intro payload version
  exact ⟨sha256_length payload, quadBytes_quadOfBytes (by rw [sha256_length]; omega)⟩

end Sys2Proof.Machine
end

section
/-! ENCODE_CHECK and ENCODE_CHECK_P from every state (R161, R162): after the range test both run `encodeCheckInto`, the one with
nothing before the version symbol, the other with PREFIX. -/

namespace Sys2Proof.Machine

variable {s u : State}

/-- The frame of a payload, without PREFIX: the version symbol, then the packing of the payload and its checksum (R161). -/
def checkFrame (payload : List Byte) (version : BitVec 8) : List Byte :=
  symbol (version.setWidth 5) :: encBytes (payload ++ quadBytes (compute payload version))

/-! ### From the capacity test on -/

/-- Without room for the frame encode with checksum reports the room needed (R161, R162). -/
theorem failed_encodeCheckInto_of_noRoom (hu : UnderWay s u) {head : List Byte}
    (hroom : s.capacity < head.length + encodedCheckLength s.inputLen) :
    Failed s (encodeCheckInto head u) (.bufferTooSmall (head.length + encodedCheckLength s.inputLen) s.capacity) := by
  rw [encodeCheckInto, hu.capacity, hu.inputLen, if_pos hroom]
  exact hu.raise _

/-- A version without a symbol is reported (R161, R162, R205). -/
theorem failed_encodeCheckInto_of_version (hu : UnderWay s u) {head : List Byte}
    (hroom : head.length + encodedCheckLength s.inputLen ≤ s.capacity) (hversion : 32 ≤ s.version.toNat) :
    Failed s (encodeCheckInto head u) (.invalidVersion s.version) := by
  rw [encodeCheckInto, hu.capacity, hu.inputLen, hu.kept.version, if_neg (by omega), if_pos hversion]
  exact (hu.setVer _).raise _

/-- With room and a version symbol the result is the head and the frame (R161, R162). -/
theorem succeeded_encodeCheckInto (hu : UnderWay s u) {head : List Byte}
    (hroom : head.length + encodedCheckLength s.inputLen ≤ s.capacity) (hversion : s.version.toNat < 32) :
    Succeeded s (encodeCheckInto head u) (head ++ checkFrame (srcRange 0 s.inputLen s) s.version) 0 := by
  rw [encodeCheckInto, hu.capacity, hu.inputLen, hu.kept.version, hu.srcRange, if_neg (by omega), if_neg (by omega),
    checkFrame, List.append_cons _ _ (encBytes _)]
  refine succeeded_encodeInto (((hu.setVer _).goThrough _).setChk _) ?_
  rw [encodedCheckLength] at hroom
  simpa [Nat.add_assoc] using hroom

/-! ### The two commands -/

/-- The outcome of ENCODE_CHECK and ENCODE_CHECK_P, their tests in the order of R161 and R162. -/
def EncodeCheckOutcome (min : Nat) (result : List Byte) (s t : State) : Prop :=
  (OutOfRange s → Failed s t (.faulted .lengthOutOfRange)) ∧
  (¬OutOfRange s → s.capacity < min → Failed s t (.bufferTooSmall min s.capacity)) ∧
  (¬OutOfRange s → min ≤ s.capacity → 32 ≤ s.version.toNat → Failed s t (.invalidVersion s.version)) ∧
  (¬OutOfRange s → min ≤ s.capacity → s.version.toNat < 32 → Succeeded s t result 0)

/-- The range test before encode with checksum. -/
theorem encodeCheckOutcome_of_tests (s : State) {head : List Byte} {min : Nat}
    (hmin : min = head.length + encodedCheckLength s.inputLen) :
    EncodeCheckOutcome min (head ++ checkFrame (srcRange 0 s.inputLen s) s.version) s
      (if (beginCommand s).lengthOutOfRange then raise (.faulted .lengthOutOfRange) (beginCommand s)
      else encodeCheckInto head (beginCommand s)) := by
  have hbegin := underWay_beginCommand s
  subst hmin
  simp only [beginCommand_lengthOutOfRange, lengthOutOfRange_iff]
  refine ⟨fun hout => ?range, fun hin hsmall => ?small, fun hin hroom hversion => ?version,
    fun hin hroom hversion => ?frame⟩
  case range =>
    rw [if_pos hout]
    exact hbegin.raise _
  case small =>
    rw [if_neg hin]
    exact failed_encodeCheckInto_of_noRoom hbegin hsmall
  case version =>
    rw [if_neg hin]
    exact failed_encodeCheckInto_of_version hbegin hroom hversion
  case frame =>
    rw [if_neg hin]
    exact succeeded_encodeCheckInto hbegin hroom hversion

/-- Settles O18: the range test, then encode with checksum with nothing before the frame. -/
theorem encodeCheckOutcomeOnEveryState : Obligations.EncodeCheckOutcomeOnEveryState := by
  unfold Obligations.EncodeCheckOutcomeOnEveryState
  intro s
  have h := encodeCheckOutcome_of_tests s (head := []) (min := encodedCheckLength s.inputLen) (by simp)
  exact ⟨_, rfl, h⟩

/-- Settles O19: the range test, then encode with checksum behind PREFIX as a byte. -/
theorem encodeCheckPrefixedOutcomeOnEveryState : Obligations.EncodeCheckPrefixedOutcomeOnEveryState := by
  unfold Obligations.EncodeCheckPrefixedOutcomeOnEveryState
  intro s
  have h := encodeCheckOutcome_of_tests s (head := [s.prefixByte]) (min := 1 + encodedCheckLength s.inputLen) (by simp)
  exact ⟨_, rfl, h⟩

end Sys2Proof.Machine
end

section
/-! DECODE_CHECK and DECODE_CHECK_P from every state (R163, R164). The tests InvalidVersion and InternalInvariant of the path never
fire: a decoded version has five bits, and WP stays below DST_CAP (R148). -/

namespace Sys2Proof.Machine

variable {s t u : State}

/-- A 5-bit version in the register VER is the version (R39). -/
@[simp] theorem setWidth_five_setWidth_eight (version : BitVec 5) : (version.setWidth 8).setWidth 5 = version := by
  rw [BitVec.setWidth_setWidth_of_le _ (by omega), BitVec.setWidth_eq]

/-- A 5-bit version passes the test for InvalidVersion (R166). -/
theorem toNat_setWidth_eight_lt (version : BitVec 5) : (version.setWidth 8).toNat < 32 := by
  rw [BitVec.toNat_setWidth_of_le (by omega)]
  exact version.isLt

/-! ### The decoded unit -/

/-- The split, the recomputation and the comparison of a unit with room for it (R163, R167). -/
theorem verifyOutcome_verifyUnit (hu : UnderWay s u) {unit : List Byte} (hroom : unit.length ≤ s.capacity)
    (version : BitVec 5) : VerifyOutcome unit version s (verifyUnit unit (version.setWidth 8) u) := by
  rw [VerifyOutcome, verifyUnit]
  dsimp only
  split
  case isTrue => exact hu.raise _
  case isFalse =>
    have hchk := (hu.goThrough [.hash, .verify]).setChk
    split
    case isTrue => exact (hchk _).raise _
    case isFalse =>
      rw [setWidth_five_setWidth_eight]
      exact (hchk _).succeed (by rw [List.length_take]; omega) _

/-! ### The unprefixed path on a slice -/

/-- Without room for a slice DECODE_CHECK reports the slice's length (R163). -/
theorem failed_decodeCheckSlice_of_noRoom (hu : UnderWay s u) {off : Nat} (hroom : s.capacity < s.inputLen - off) :
    Failed s (decodeCheckSlice off u) (.bufferTooSmall (s.inputLen - off) s.capacity) := by
  rw [decodeCheckSlice, hu.capacity, hu.inputLen, decodedCheckLength, if_pos hroom]
  exact hu.raise _

/-- A slice too short for a version and a unit is reported with its length (R163, R206). -/
theorem failed_decodeCheckSlice_of_short (hu : UnderWay s u) {off : Nat} (hroom : s.inputLen - off ≤ s.capacity)
    (hshort : s.inputLen - off < 2) :
    Failed s (decodeCheckSlice off u) (.insufficientData 2 (s.inputLen - off)) := by
  rw [decodeCheckSlice, hu.capacity, hu.inputLen, decodedCheckLength, if_neg (by omega), if_pos hshort]
  exact hu.raise _

/-- A slice that does not begin with a version symbol is reported there (R163). -/
theorem failed_decodeCheckSlice_of_versionSymbol (hu : UnderWay s u) {off : Nat}
    (hroom : s.inputLen - off ≤ s.capacity) (hlong : 2 ≤ s.inputLen - off)
    (hsymbol : symbolValue (readByte .src off s) = none) :
    Failed s (decodeCheckSlice off u) (.invalidCharacter (readByte .src off s) off) := by
  have hhead := hu.goThrough [.head]
  rw [decodeCheckSlice, hu.capacity, hu.inputLen, decodedCheckLength, if_neg (by omega), if_neg (by omega)]
  simp only [hhead.readSrc, hsymbol]
  exact hhead.raise _

/-- An invalid symbol behind the version symbol is reported with its index in SRC (R163, R211). -/
theorem failed_decodeCheckSlice_of_badIndex (hu : UnderWay s u) {off i : Nat} {version : BitVec 5}
    (hroom : s.inputLen - off ≤ s.capacity) (hlong : 2 ≤ s.inputLen - off)
    (hsymbol : symbolValue (readByte .src off s) = some version)
    (hbad : badIndex (srcRange (off + 1) (s.inputLen - off - 1) s) = some i) :
    Failed s (decodeCheckSlice off u) (.invalidCharacter (readByte .src (off + 1 + i) s) (off + 1 + i)) := by
  obtain ⟨lz, ch, hrun, hi⟩ := decodeRun_bad hbad
  rw [srcRange_length] at hi
  rw [srcRange_getD hi] at hrun
  have hversion := toNat_setWidth_eight_lt version
  have hhead := hu.goThrough [.head]
  have hver := hhead.setVer (version.setWidth 8)
  rw [decodeCheckSlice, hu.capacity, hu.inputLen, decodedCheckLength, if_neg (by omega), if_neg (by omega)]
  simp only [hhead.readSrc, hsymbol, if_neg (Nat.not_le_of_lt hversion), hver.srcRange, hrun]
  exact ((hver.loadBad _ _ _).goThrough _).raise _

/-- A completed run behind the version symbol gives the unit that is verified: WP stays below DST_CAP (R148, R163). -/
theorem verifyOutcome_decodeCheckSlice (hu : UnderWay s u) {off : Nat} {version : BitVec 5} {r : EngineRun}
    (hroom : s.inputLen - off ≤ s.capacity) (hlong : 2 ≤ s.inputLen - off)
    (hsymbol : symbolValue (readByte .src off s) = some version)
    (hrun : decodeRun (srcRange (off + 1) (s.inputLen - off - 1) s) = .ok r) :
    VerifyOutcome r.result version s (decodeCheckSlice off u) := by
  have hpeak := decodeRun_peak_le hrun
  have hlength := decodeRun_result_le_peak hrun
  rw [srcRange_length] at hpeak
  have hversion := toNat_setWidth_eight_lt version
  have hhead := hu.goThrough [.head]
  have hver := hhead.setVer (version.setWidth 8)
  have hload := hver.load r 0 (BitVec.ofNat 2 (off + 1))
  rw [decodeCheckSlice, hu.capacity, hu.inputLen, decodedCheckLength, if_neg (by omega), if_neg (by omega)]
  simp only [hhead.readSrc, hsymbol, if_neg (Nat.not_le_of_lt hversion), hver.srcRange, hrun, hload.capacity]
  rw [if_neg (by omega)]
  exact verifyOutcome_verifyUnit (hload.goThrough _) (by omega) version

/-- The outcome of the unprefixed path: room, length, version symbol, the reported index, then the completed run (R163). -/
theorem decodeCheckOutcome_decodeCheckSlice (hu : UnderWay s u) (off : Nat) :
    DecodeCheckOutcome off s (decodeCheckSlice off u) := by
  rw [DecodeCheckOutcome]
  split
  case isTrue hroom => exact failed_decodeCheckSlice_of_noRoom hu hroom
  case isFalse hroom =>
    rw [Nat.not_lt] at hroom
    split
    case isTrue hshort => exact failed_decodeCheckSlice_of_short hu hroom hshort
    case isFalse hlong =>
      rw [Nat.not_lt] at hlong
      split
      case h_1 hsymbol => exact failed_decodeCheckSlice_of_versionSymbol hu hroom hlong hsymbol
      case h_2 version hsymbol =>
        split
        case h_1 i hbad => exact failed_decodeCheckSlice_of_badIndex hu hroom hlong hsymbol hbad
        case h_2 hvalid =>
          obtain ⟨ch, ds, hrun, -⟩ := decodeRun_ok hvalid
          exact ⟨_, decBytes_of_decodeRun_ok hrun, verifyOutcome_decodeCheckSlice hu hroom hlong hsymbol hrun⟩

/-! ### DECODE_CHECK -/

theorem exec_decodeCheck_of_outOfRange (h : OutOfRange s) :
    exec .decodeCheck s = .next (raise (.faulted .lengthOutOfRange) (beginCommand s)) :=
  congrArg Host.Outcome.next (if_pos ((lengthOutOfRange_iff s).2 h))

/-- DECODE_CHECK with its lengths in range is its slice from SRC[0] on (R163). -/
theorem exec_decodeCheck_of_inRange (h : ¬OutOfRange s) :
    exec .decodeCheck s = .next (decodeCheckSlice 0 (beginCommand s)) := by
  rw [← lengthOutOfRange_iff] at h
  exact congrArg Host.Outcome.next (if_neg h)

/-- Settles O20: the range test of R163, then the path on SRC[0..M). -/
theorem decodeCheckOutcomeOnEveryState : Obligations.DecodeCheckOutcomeOnEveryState := by
  unfold Obligations.DecodeCheckOutcomeOnEveryState
  intro s
  have hbegin := underWay_beginCommand s
  by_cases hrange : OutOfRange s
  · exact ⟨_, exec_decodeCheck_of_outOfRange hrange, fun _ => hbegin.raise _, fun hin => absurd hrange hin⟩
  · exact ⟨_, exec_decodeCheck_of_inRange hrange, fun hout => absurd hout hrange,
      fun _ => decodeCheckOutcome_decodeCheckSlice hbegin 0⟩

/-! ### DECODE_CHECK_P -/

theorem exec_decodeCheckP_of_outOfRange (h : OutOfRange s) :
    exec .decodeCheckP s = .next (raise (.faulted .lengthOutOfRange) (beginCommand s)) :=
  congrArg Host.Outcome.next (if_pos ((lengthOutOfRange_iff s).2 h))

theorem exec_decodeCheckP_of_prefixError {e : CommandError} (h : ¬OutOfRange s) (he : prefixError s = some e) :
    exec .decodeCheckP s = .next (raise e (beginCommand s)) := by
  rw [← lengthOutOfRange_iff] at h
  refine congrArg Host.Outcome.next ((if_neg h).trans ?_)
  rw [prefixError_beginCommand, he]

/-- DECODE_CHECK_P, when SRC[0] is PREFIX, is its slice from SRC[1] on (R164). -/
theorem exec_decodeCheckP_of_prefix (h : ¬OutOfRange s) (he : prefixError s = none) :
    exec .decodeCheckP s = .next (decodeCheckSlice 1 (beginCommand s)) := by
  rw [← lengthOutOfRange_iff] at h
  refine congrArg Host.Outcome.next ((if_neg h).trans ?_)
  rw [prefixError_beginCommand, he]

/-- Settles O21: the range test, the test of R204 for PREFIX, then the path on SRC[1..M). -/
theorem decodeCheckPrefixedOutcomeOnEveryState : Obligations.DecodeCheckPrefixedOutcomeOnEveryState := by
  unfold Obligations.DecodeCheckPrefixedOutcomeOnEveryState
  intro s
  have hbegin := underWay_beginCommand s
  obtain ⟨t, ht, -⟩ := exec_completion .decodeCheckP s
  refine ⟨t, ht, fun hout => ?range, fun hin hempty => ?noByte, fun hin hbyte hne => ?otherByte,
    fun hin hbyte heq => ?path⟩
  case range =>
    cases ht.symm.trans (exec_decodeCheckP_of_outOfRange hout)
    exact hbegin.raise _
  case noByte =>
    cases ht.symm.trans (exec_decodeCheckP_of_prefixError hin (prefixError_of_empty hempty))
    exact hbegin.raise _
  case otherByte =>
    cases ht.symm.trans (exec_decodeCheckP_of_prefixError hin (prefixError_of_ne hbyte hne))
    exact hbegin.raise _
  case path =>
    cases ht.symm.trans (exec_decodeCheckP_of_prefix hin (prefixError_of_eq hbyte heq))
    exact decodeCheckOutcome_decodeCheckSlice hbegin 1

end Sys2Proof.Machine
end

section
/-! Decoding a frame gives its payload and version (R168 a): from a frame in SRC, behind PREFIX or not, and on the machine from
the result of ENCODE_CHECK. -/

namespace Sys2Proof.Machine

variable {s t u : State}

/-! ### A frame in SRC -/

theorem srcRange_succ (start len : Nat) (s : State) :
    srcRange start (len + 1) s = readByte .src start s :: srcRange (start + 1) len s := by
  rw [srcRange, List.range'_succ, List.map_cons, srcRange]

/-- A range of SRC that is a byte and a rest begins with that byte and goes on with the rest. -/
theorem readByte_and_srcRange_of_cons {start len : Nat} {b : Byte} {bs : List Byte} (h : srcRange start len s = b :: bs) :
    readByte .src start s = b ∧ srcRange (start + 1) (len - 1) s = bs := by
  obtain _ | len := len
  · exact nomatch h
  · rw [srcRange_succ, List.cons.injEq] at h
    exact h

/-- No byte sequence but the empty one has an empty encoding, as decoding gives the bytes back (R151 a). -/
theorem encBytes_length_pos {bytes : List Byte} (h : 0 < bytes.length) : 0 < (encBytes bytes).length := by
  rw [List.length_pos_iff] at h ⊢
  intro hempty
  have hdec := decClosed_encBytes bytes
  rw [hempty] at hdec
  exact h hdec.symm

/-- The frame of a 5-bit version begins with the version's symbol (R161). -/
theorem checkFrame_setWidth (payload : List Byte) (version : BitVec 5) :
    checkFrame payload (version.setWidth 8) =
      symbol version :: encBytes (payload ++ quadBytes (compute payload (version.setWidth 8))) := by
  rw [checkFrame, setWidth_five_setWidth_eight]

/-- A unit of a payload and its checksum is verified (R167, R168 a). -/
theorem VerifyOutcome.succeeded {payload : List Byte} {version : BitVec 5}
    (h : VerifyOutcome (payload ++ quadBytes (compute payload (version.setWidth 8))) version s t) :
    Succeeded s t payload version := by
  simpa [VerifyOutcome] using h

/-- With room the outcome of decoding a frame is success with its payload and version (R168 a). -/
theorem DecodeCheckOutcome.succeeded {off : Nat} {payload : List Byte} {version : BitVec 5}
    (h : DecodeCheckOutcome off s t) (hroom : s.inputLen - off ≤ s.capacity)
    (hframe : srcRange off (s.inputLen - off) s = checkFrame payload (version.setWidth 8)) :
    Succeeded s t payload version := by
  rw [checkFrame_setWidth] at hframe
  obtain ⟨hsymbol, hunit⟩ := readByte_and_srcRange_of_cons hframe
  have hlong : 2 ≤ s.inputLen - off := by
    have hpos := encBytes_length_pos (bytes := payload ++ quadBytes (compute payload (version.setWidth 8))) (by simp)
    have hlen := congrArg List.length hunit
    rw [srcRange_length] at hlen
    omega
  have hvalid := badIndex_map_symbol (encValues (payload ++ quadBytes (compute payload (version.setWidth 8))))
  rw [← encBytes_eq_map_symbol] at hvalid
  rw [DecodeCheckOutcome, if_neg (by omega), if_neg (by omega), hsymbol, symbolValue_symbol] at h
  simp only [hunit, hvalid] at h
  obtain ⟨unit, hdec, hverify⟩ := h
  obtain rfl := Option.some.inj ((decodingAnEncodingGivesTheBytes _).symm.trans hdec)
  exact hverify.succeeded

/-- Settles O24: within the sizes DECODE_CHECK takes its path, which succeeds on a frame. -/
theorem decodeCheckOfFrameCompletes : Obligations.DecodeCheckOfFrameCompletes := by
  unfold Obligations.DecodeCheckOfFrameCompletes
  intro s payload version hsrc hdst hroom hframe
  obtain ⟨t, hexec, -, hpath⟩ := decodeCheckOutcomeOnEveryState s
  rw [← checkFrame_setWidth] at hframe
  exact ⟨t, hexec, (hpath (not_outOfRange hsrc hdst)).succeeded hroom hframe⟩

/-- Settles O25: within the sizes and behind PREFIX, DECODE_CHECK_P takes its path, which succeeds on a frame. -/
theorem decodeCheckPrefixedOfFrameCompletes : Obligations.DecodeCheckPrefixedOfFrameCompletes := by
  unfold Obligations.DecodeCheckPrefixedOfFrameCompletes
  intro s payload version hsrc hdst hroom hsource
  obtain ⟨t, hexec, -, -, -, hpath⟩ := decodeCheckPrefixedOutcomeOnEveryState s
  obtain ⟨hprefix, hframe⟩ := readByte_and_srcRange_of_cons hsource
  have hnonempty : s.inputLen ≠ 0 := by
    have := congrArg List.length hsource
    rw [srcRange_length, List.length_cons] at this
    omega
  rw [← checkFrame_setWidth] at hframe
  exact ⟨t, hexec, (hpath (not_outOfRange hsrc hdst) hnonempty hprefix).succeeded (by omega) hframe⟩

/-! ### ENCODE_CHECK, then DECODE_CHECK -/

/-- An ENCODE_CHECK that ended without an error had a 5-bit version and left the frame of its payload (R161). -/
theorem succeeded_of_exec_encodeCheck (h : exec .encodeCheck s = .next t) (hstatus : t.status = 0x02) :
    s.version.toNat < 32 ∧ Succeeded s t (checkFrame (srcRange 0 s.inputLen s) s.version) 0 := by
  obtain ⟨t', ht', hrange, hsmall, hversion, hframe⟩ := encodeCheckOutcomeOnEveryState s
  obtain rfl : t' = t := by simpa [ht'] using h
  have hin : ¬OutOfRange s := fun hout => (hrange hout).status_ne hstatus
  have hroom := Nat.le_of_not_lt fun hlt => (hsmall hin hlt).status_ne hstatus
  have hlow := Nat.lt_of_not_le fun hle => (hversion hin hroom hle).status_ne hstatus
  exact ⟨hlow, hframe hin hroom hlow⟩

/-- A version below 32 keeps its value in 5 bits. -/
theorem setWidth_eight_setWidth_five {version : BitVec 8} (h : version.toNat < 32) :
    (version.setWidth 5).setWidth 8 = version := by
  apply BitVec.eq_of_toNat_eq
  rw [BitVec.toNat_setWidth_of_le (by omega), BitVec.toNat_setWidth]
  exact Nat.mod_eq_of_lt h

/-- Settles O37: SRC holds the frame of the payload, which DECODE_CHECK takes apart. -/
theorem decodeCheckRestoresPayloadAndVersion : Obligations.DecodeCheckRestoresPayloadAndVersion := by
  unfold Obligations.DecodeCheckRestoresPayloadAndVersion
  intro s t u hencode hstatus hcopy hsrc hdst hroom
  obtain ⟨hversion, hresult⟩ := succeeded_of_exec_encodeCheck hencode hstatus
  have hframe := hcopy.srcRange_eq hresult
  rw [← setWidth_eight_setWidth_five hversion, checkFrame_setWidth] at hframe
  exact decodeCheckOfFrameCompletes u _ _ hsrc hdst hroom hframe

end Sys2Proof.Machine
end

section
/-! The padding of the SHA-256 unit (R181). -/

namespace Sys2Proof.Machine

@[simp] theorem bigEndianBytes_length (count x : Nat) : (bigEndianBytes count x).length = count := by
  induction count with
  | zero => rfl
  | succ count ih => rw [bigEndianBytes, List.length_cons, ih]

/-- Below 64 its residue fixes the number of zero bytes, so R181's least one is this. -/
theorem shaZeroCount_lt (len : Nat) : shaZeroCount len < 64 := Nat.mod_lt _ (by decide)

/-- The zero bytes leave the last eight bytes of a block to the bit length. -/
theorem add_shaZeroCount_mod (len : Nat) : (len + 1 + shaZeroCount len) % 64 = 56 := by
  unfold shaZeroCount
  omega

theorem shaPad_length (m : List Byte) : (shaPad m).length = m.length + 1 + shaZeroCount m.length + 8 := by
  simp only [shaPad, List.length_append, List.length_singleton, List.length_replicate, bigEndianBytes_length]

/-- Before the bit length the padded message is 56 modulo 64 bytes long, and 56 + 8 is a block. -/
theorem shaPad_length_mod (m : List Byte) : (shaPad m).length % 64 = 0 := by
  have hzeros := add_shaZeroCount_mod m.length
  rw [shaPad_length]
  omega

/-- Settles O34: the number of zero bytes is `shaZeroCount` of the message's length. -/
theorem shaPaddingFillsBlocks : Obligations.ShaPaddingFillsBlocks := by
  unfold Obligations.ShaPaddingFillsBlocks
  intro m
  exact ⟨shaZeroCount m.length, shaZeroCount_lt _, add_shaZeroCount_mod _, rfl, shaPad_length_mod m⟩

end Sys2Proof.Machine
end

section
/-! Errors and faults. Which command reports which error (R201), read off the outcome of each command; the record, the error
completion (R209) and STATUS after a completion (R44, R200). -/

namespace Sys2Proof.Machine

variable {i : Instr} {s t : State}

/-! ### The record and the error completion -/

/-- Settles O38: each equation is an arm of `CommandError.record`. -/
theorem errorRecordFields : Obligations.ErrorRecordFields := by
  unfold Obligations.ErrorRecordFields
  intros
  exact ⟨rfl, rfl, rfl, rfl, rfl, rfl, rfl, rfl, rfl, rfl, rfl⟩

/-- An error completion overwrites the whole record, so it does not matter what stood there (R209). -/
theorem raise_with_err (e : CommandError) (r : ErrorRecord) (s : State) : raise e { s with err := r } = raise e s := by
  unfold raise dstAfterError
  split <;> rfl

/-- Settles O39: `raise` from a state whose record was cleared is the failure of a command under way. -/
theorem errorCompletionEffect : Obligations.ErrorCompletionEffect := by
  unfold Obligations.ErrorCompletionEffect
  intro e s
  have hcleared : UnderWay s { s with err := ErrorRecord.zero } :=
    ⟨⟨rfl, rfl, rfl, rfl, rfl, rfl, rfl, rfl, rfl, rfl⟩, rfl, rfl⟩
  exact ⟨raise_with_err e ErrorRecord.zero s ▸ hcleared.raise e, raise_work s e⟩

/-! ### STATUS after a completion -/

theorem stateField_completionStatus (errKind : BitVec 8) : stateField (completionStatus errKind) = 2 := by
  rw [completionStatus]
  split <;> rfl

theorem errFlag_completionStatus_iff (errKind : BitVec 8) : errFlag (completionStatus errKind) = true ↔ errKind ≠ 0 := by
  rw [completionStatus]
  split
  case isTrue hzero => simp [errFlag, hzero]
  case isFalse hkind => exact iff_of_true rfl hkind

/-- Every completion writes STATUS by the record it leaves (R44). -/
theorem Completion.status_eq (h : Completion s t) : t.status = completionStatus t.err.errKind := by
  cases h with
  | failed | succeeded | computed => simp

theorem Completion.phase_eq (h : Completion s t) : t.work.phase = .idle := by
  cases h with
  | failed | succeeded | computed => simp

/-- Settles O42: every command ends in a completion, whose STATUS is DONE with ERR by ERR_KIND. -/
theorem everyCommandCompletes : Obligations.EveryCommandCompletes := by
  unfold Obligations.EveryCommandCompletes
  intro i s
  obtain ⟨t, hexec, hcompletion⟩ := exec_completion i s
  have hdone : t.doneLine = true := by
    rw [State.doneLine, State.isDone, hcompletion.status_eq, stateField_completionStatus, beq_self_eq_true]
  refine ⟨t, hexec, hdone, hcompletion.phase_eq, ?_⟩
  rw [hcompletion.status_eq]
  exact errFlag_completionStatus_iff _

/-! ### Which command reports which error -/

/-- The column "raised by" of R201, without its unreachable entry for InvalidVersion (R166), and the causes of R208: no command
has IllegalCommand, which is raised for a byte that is no command, or InternalInvariant, which the bounds on WP exclude (R127,
R148). -/
inductive CommandError.ReportedBy (i : Instr) : CommandError → Prop where
  | bufferTooSmall {min len : Nat} (hbuffer : i.fields.capacity = false) : ReportedBy i (.bufferTooSmall min len)
  | invalidCharacter {char : Byte} {index : Nat} (hbuffer : i.fields.capacity = false)
      (hside : i.fields.decodeSide = true) : ReportedBy i (.invalidCharacter char index)
  | missingPrefix {expected : Byte} {got : Option Byte} (hi : i = .decodeP ∨ i = .decodeCheckP) :
      ReportedBy i (.missingPrefix expected got)
  | invalidVersion {version : BitVec 8} (hi : i = .encodeCheck ∨ i = .encodeCheckP) :
      ReportedBy i (.invalidVersion version)
  | insufficientData {min len : Nat} (hi : i = .decodeCheck ∨ i = .decodeCheckP) :
      ReportedBy i (.insufficientData min len)
  | checksumMismatch {expected got : Quad} (hi : i = .decodeCheck ∨ i = .decodeCheckP) :
      ReportedBy i (.checksumMismatch expected got)
  | shortFrame (hi : i = .decodeCheck ∨ i = .decodeCheckP) : ReportedBy i (.faulted .shortFrame)
  | lengthOutOfRange (hbuffer : i.fields.capacity = false) : ReportedBy i (.faulted .lengthOutOfRange)

/-- A record that a command may leave: none, or that of an error it reports. -/
def ErrorRecord.ReportedBy (i : Instr) (r : ErrorRecord) : Prop :=
  r = ErrorRecord.zero ∨ ∃ e : CommandError, e.ReportedBy i ∧ r = e.record

theorem Succeeded.reported {result : List Byte} {version : BitVec 5} (h : Succeeded s t result version) :
    t.err.ReportedBy i :=
  .inl h.err

theorem Failed.reported {e : CommandError} (h : Failed s t e) (he : e.ReportedBy i) : t.err.ReportedBy i :=
  .inr ⟨e, he, h.err⟩

/-! ### The records the outcomes leave -/

theorem EncodeOutcome.reported {min : Nat} {result : List Byte} (h : EncodeOutcome min result s t)
    (hbuffer : i.fields.capacity = false) : t.err.ReportedBy i := by
  obtain ⟨hrange, hsmall, hroom⟩ := h
  by_cases hout : OutOfRange s
  · exact (hrange hout).reported (.lengthOutOfRange hbuffer)
  by_cases hmin : s.capacity < min
  · exact (hsmall hout hmin).reported (.bufferTooSmall hbuffer)
  · exact (hroom hout (Nat.le_of_not_lt hmin)).reported

theorem EncodeCheckOutcome.reported {min : Nat} {result : List Byte} (h : EncodeCheckOutcome min result s t)
    (hi : i = .encodeCheck ∨ i = .encodeCheckP) : t.err.ReportedBy i := by
  have hbuffer : i.fields.capacity = false := by rcases hi with rfl | rfl <;> rfl
  obtain ⟨hrange, hsmall, hversion, hroom⟩ := h
  by_cases hout : OutOfRange s
  · exact (hrange hout).reported (.lengthOutOfRange hbuffer)
  by_cases hmin : s.capacity < min
  · exact (hsmall hout hmin).reported (.bufferTooSmall hbuffer)
  by_cases hlarge : 32 ≤ s.version.toNat
  · exact (hversion hout (Nat.le_of_not_lt hmin) hlarge).reported (.invalidVersion hi)
  · exact (hroom hout (Nat.le_of_not_lt hmin) (Nat.lt_of_not_le hlarge)).reported

theorem DecodeOutcome.reported {off : Nat} (h : DecodeOutcome off s t) (hbuffer : i.fields.capacity = false)
    (hside : i.fields.decodeSide = true) : t.err.ReportedBy i := by
  rw [DecodeOutcome] at h
  split at h
  · exact h.reported (.bufferTooSmall hbuffer)
  split at h
  · exact h.reported (.invalidCharacter hbuffer hside)
  · obtain ⟨bytes, -, hsucceeded⟩ := h
    exact hsucceeded.reported

theorem VerifyOutcome.reported {unit : List Byte} {version : BitVec 5} (h : VerifyOutcome unit version s t)
    (hi : i = .decodeCheck ∨ i = .decodeCheckP) : t.err.ReportedBy i := by
  rw [VerifyOutcome] at h
  split at h
  · exact h.reported (.shortFrame hi)
  split at h
  · exact h.reported (.checksumMismatch hi)
  · exact h.reported

theorem DecodeCheckOutcome.reported {off : Nat} (h : DecodeCheckOutcome off s t)
    (hi : i = .decodeCheck ∨ i = .decodeCheckP) : t.err.ReportedBy i := by
  have hbuffer : i.fields.capacity = false := by rcases hi with rfl | rfl <;> rfl
  have hside : i.fields.decodeSide = true := by rcases hi with rfl | rfl <;> rfl
  rw [DecodeCheckOutcome] at h
  split at h
  · exact h.reported (.bufferTooSmall hbuffer)
  split at h
  · exact h.reported (.insufficientData hi)
  split at h
  · exact h.reported (.invalidCharacter hbuffer hside)
  split at h
  · exact h.reported (.invalidCharacter hbuffer hside)
  · obtain ⟨unit, -, hverify⟩ := h
    exact hverify.reported hi

/-- The range test and the test for PREFIX of the prefixed decode commands (R150, R164), before a path that reports its own. -/
theorem reported_of_prefix_tests {expected : Byte} (hi : i = .decodeP ∨ i = .decodeCheckP)
    (hrange : OutOfRange s → Failed s t (.faulted .lengthOutOfRange))
    (hempty : ¬OutOfRange s → s.inputLen = 0 → Failed s t (.missingPrefix expected none))
    (hother : ¬OutOfRange s → s.inputLen ≠ 0 → readByte .src 0 s ≠ expected →
      Failed s t (.missingPrefix expected (some (readByte .src 0 s))))
    (hpath : ¬OutOfRange s → s.inputLen ≠ 0 → readByte .src 0 s = expected → t.err.ReportedBy i) :
    t.err.ReportedBy i := by
  by_cases hout : OutOfRange s
  · exact (hrange hout).reported (.lengthOutOfRange (by rcases hi with rfl | rfl <;> rfl))
  by_cases hlen : s.inputLen = 0
  · exact (hempty hout hlen).reported (.missingPrefix hi)
  by_cases hbyte : readByte .src 0 s = expected
  · exact hpath hout hlen hbyte
  · exact (hother hout hlen hbyte).reported (.missingPrefix hi)

/-- Every command leaves no record or that of an error it reports, as its outcome from every state has no other failure. -/
theorem exec_reported (h : exec i s = .next t) : t.err.ReportedBy i := by
  cases i with
  | enclen | declen | encchklen | decchklen =>
    cases h
    exact .inl rfl
  | encode =>
    obtain ⟨t', ht', houtcome⟩ := encodeOutcomeOnEveryState s
    cases ht'.symm.trans h
    exact EncodeOutcome.reported houtcome rfl
  | encodeP =>
    obtain ⟨t', ht', houtcome⟩ := encodePrefixedOutcomeOnEveryState s
    cases ht'.symm.trans h
    exact EncodeOutcome.reported houtcome rfl
  | encodeCheck =>
    obtain ⟨t', ht', houtcome⟩ := encodeCheckOutcomeOnEveryState s
    cases ht'.symm.trans h
    exact EncodeCheckOutcome.reported houtcome (.inl rfl)
  | encodeCheckP =>
    obtain ⟨t', ht', houtcome⟩ := encodeCheckPrefixedOutcomeOnEveryState s
    cases ht'.symm.trans h
    exact EncodeCheckOutcome.reported houtcome (.inr rfl)
  | decode =>
    obtain ⟨t', ht', hrange, hpath⟩ := decodeOutcomeOnEveryState s
    cases ht'.symm.trans h
    by_cases hout : OutOfRange s
    · exact (hrange hout).reported (.lengthOutOfRange rfl)
    · exact (hpath hout).reported rfl rfl
  | decodeCheck =>
    obtain ⟨t', ht', hrange, hpath⟩ := decodeCheckOutcomeOnEveryState s
    cases ht'.symm.trans h
    by_cases hout : OutOfRange s
    · exact (hrange hout).reported (.lengthOutOfRange rfl)
    · exact (hpath hout).reported (.inl rfl)
  | decodeP =>
    obtain ⟨t', ht', hrange, hempty, hother, hpath⟩ := decodePrefixedOutcomeOnEveryState s
    cases ht'.symm.trans h
    exact reported_of_prefix_tests (.inl rfl) hrange hempty hother
      fun hout hlen hbyte => (hpath hout hlen hbyte).reported rfl rfl
  | decodeCheckP =>
    obtain ⟨t', ht', hrange, hempty, hother, hpath⟩ := decodeCheckPrefixedOutcomeOnEveryState s
    cases ht'.symm.trans h
    exact reported_of_prefix_tests (.inr rfl) hrange hempty hother
      fun hout hlen hbyte => (hpath hout hlen hbyte).reported (.inr rfl)

/-! ### What the codes of a record tell -/

@[simp] theorem errKind_missingPrefix (expected : Byte) (got : Option Byte) :
    (CommandError.missingPrefix expected got).record.errKind = 3 := by
  cases got <;> rfl

@[simp] theorem faultCause_missingPrefix (expected : Byte) (got : Option Byte) :
    (CommandError.missingPrefix expected got).record.faultCause = 0 := by
  cases got <;> rfl

namespace CommandError.ReportedBy

variable {e : CommandError} (h : e.ReportedBy i)
include h

/-- An error is a buffer command's (R201). -/
theorem buffer : i.fields.capacity = false := by
  cases h with
  | bufferTooSmall hbuffer | invalidCharacter hbuffer | lengthOutOfRange hbuffer => exact hbuffer
  | missingPrefix hi | invalidVersion hi | insufficientData hi | checksumMismatch hi | shortFrame hi =>
    rcases hi with rfl | rfl <;> rfl

/-- The causes a command leaves are those of ShortFrame and LengthOutOfRange (R208). -/
theorem faultCause : e.record.faultCause = 0 ∨ e.record.faultCause = 2 ∨ e.record.faultCause = 4 := by
  cases h with
  | shortFrame => exact .inr (.inl rfl)
  | lengthOutOfRange => exact .inr (.inr rfl)
  | missingPrefix => exact .inl (faultCause_missingPrefix _ _)
  | bufferTooSmall | invalidCharacter | invalidVersion | insufficientData | checksumMismatch => exact .inl rfl

/-- The code of a record names the commands it may come from (R201). -/
theorem commands :
    (e.record.errKind = 2 → i.fields.decodeSide = true) ∧
    (e.record.errKind = 3 → i = .decodeP ∨ i = .decodeCheckP) ∧
    (e.record.errKind = 4 → i = .encodeCheck ∨ i = .encodeCheckP) ∧
    (e.record.errKind = 5 ∨ e.record.errKind = 6 ∨ e.record.faultCause = 2 → i = .decodeCheck ∨ i = .decodeCheckP) := by
  cases h with
  | missingPrefix hi => simp [hi]
  | invalidCharacter _ hi | invalidVersion hi | insufficientData hi | checksumMismatch hi | shortFrame hi =>
    simp [record, ErrorRecord.zero, hi]
  | bufferTooSmall | lengthOutOfRange => simp [record, ErrorRecord.zero, FaultCause.code]

end CommandError.ReportedBy

/-- Settles O40: no command reports InternalInvariant, as the bounds on WP (R127, R148) keep it out of every outcome. -/
theorem internalInvariantIsNeverRaised : Obligations.InternalInvariantIsNeverRaised := by
  unfold Obligations.InternalInvariantIsNeverRaised
  intro i s t h
  obtain herr | ⟨e, he, herr⟩ := exec_reported h
  · rw [herr]
    decide
  · rw [herr]
    obtain hcause | hcause | hcause := he.faultCause <;> simp [hcause]

/-- Settles O41: the record is that of an error the command reports, whose code names the commands. -/
theorem errorKindsByCommand : Obligations.ErrorKindsByCommand := by
  unfold Obligations.ErrorKindsByCommand
  intro i s t h
  obtain herr | ⟨e, he, herr⟩ := exec_reported h
  · simp [herr, ErrorRecord.zero]
  · rw [herr]
    obtain ⟨hcharacter, hprefix, hversion, hchecksum⟩ := he.commands
    refine ⟨fun hcapacity => ?_, hcharacter, hprefix, hversion, hchecksum, ?_⟩
    · exact absurd hcapacity (by simp [he.buffer])
    · obtain hcause | hcause | hcause := he.faultCause <;> simp [hcause]

end Sys2Proof.Machine
end

section
/-! The step while not BUSY (R5, R218): nothing moves the block but the first line of the HOST's script. -/

namespace Sys2Proof.Machine

variable {s : State}

/-- While not BUSY a step with no line left changes nothing (R218). -/
theorem step_of_not_busy_of_nil (hbusy : s.isBusy = false) (hscript : s.script = []) : step s = .next s := by
  simp [step, turn, hscript, hbusy]

/-- Settles O6: while not BUSY the move is the HOST's or nobody's, and each line's act is its arm of `hostAct`. -/
theorem idleBlockRests : Obligations.IdleBlockRests := by
  unfold Obligations.IdleBlockRests
  refine ⟨fun s hbusy => ⟨step_of_not_busy_of_nil hbusy, fun line rest => step_of_not_busy hbusy⟩, fun s rest => ?_⟩
  exact ⟨fun offset value => rfl, fun offset => rfl, fun i => rfl, rfl, fun sp index => ⟨rfl, rfl⟩⟩

end Sys2Proof.Machine
end

section
/-! Reset while BUSY (R231): it abandons the command, and no other act of the HOST does. -/

namespace Sys2Proof.Machine

variable {s : State}

/-- A pulse while BUSY is a draw of the DST bytes that exist below DST_CAP, then the reset values (R231, log entry 16). -/
theorem resetInput_of_busy (hbusy : s.isBusy = true) :
    resetInput s = resetRegisters (scratch 0 (min s.capacity s.params.dstSize) s) := by
  rw [resetInput, if_pos hbusy]

theorem readByte_dst_resetInput_of_busy (hbusy : s.isBusy = true) (i : Nat) :
    readByte .dst i (resetInput s) = readByte .dst i (scratch 0 (min s.capacity s.params.dstSize) s) := by
  rw [resetInput_of_busy hbusy]
  exact readByte_dst_congr rfl rfl i

/-- Settles O50: the pulse draws DST below DST_CAP and sets the registers; any other act moves the HOST's side alone (R68). -/
theorem resetWhileBusyAbandonsTheCommand : Obligations.ResetWhileBusyAbandonsTheCommand := by
  unfold Obligations.ResetWhileBusyAbandonsTheCommand
  intro s hbusy
  refine ⟨⟨_, _, _, resetInput_of_busy hbusy⟩, fun i hi => ?kept, fun i hcapacity hsize => ?drawn,
    fun u line rest hline hact => ?acts⟩
  case kept =>
    rw [readByte_dst_resetInput_of_busy hbusy, readByte_scratch_of_out (.inr (min_le_of_left_le hi))]
  case drawn =>
    rw [readByte_dst_resetInput_of_busy hbusy, readByte_scratch_of_in i.zero_le (lt_min hcapacity hsize)]
  case acts =>
    obtain ⟨script, reads, draws, hnext⟩ := hostAct_of_busy hbusy hline rest
    cases hnext.symm.trans hact
    exact ⟨hbusy, rfl⟩

end Sys2Proof.Machine
end
